-- ==== Sys2Proof/Word.lean ====
section
/-! DEFINITION. The plain types of the machine's values: bytes, words, addresses, field values and register
numbers (spec/00_scope.md R6 and R7, spec/10_state.md R20). Nothing in the machine is signed. -/

namespace Sys2Proof

/-- 8 bits: a general register, a timer, a memory cell, the NN field. -/
abbrev Byte := BitVec 8

/-- 16 bits: an instruction word, the pc, the index register, a stack entry. -/
abbrev Word := BitVec 16

/-- 12 bits: the NNN field. -/
abbrev Addr := BitVec 12

/-- 4 bits: the category and the N field. -/
abbrev Nibble := BitVec 4

/-- The number of a general register V0 to VF; a 4-bit field always names one (R20). -/
abbrev Reg := Fin 16

end Sys2Proof
end

