-- ==== Sys2Proof/Syntax.lean ====
section
/-! DEFINITION. The instructions: one constructor per row of spec/opcode_table.json, in the table's order, each
carrying "only the operand fields relevant to that operation" (spec/30_encoding.md R92, R101). -/

namespace Sys2Proof

/-- A decoded instruction (R101). Register operands are register numbers, immediates are the field as it stands. -/
inductive Instr where
  | clear
  | ret
  | jump (addr : Addr)
  | call (addr : Addr)
  | skipEqVal (x : Reg) (nn : Byte)
  | skipNeVal (x : Reg) (nn : Byte)
  | skipEqReg (x y : Reg)
  | set (x : Reg) (nn : Byte)
  | add (x : Reg) (nn : Byte)
  | setReg (x y : Reg)
  | or (x y : Reg)
  | and (x y : Reg)
  | xor (x y : Reg)
  | addReg (x y : Reg)
  | sub1 (x y : Reg)
  | shr (x y : Reg)
  | sub2 (x y : Reg)
  | shl (x y : Reg)
  | skipNeReg (x y : Reg)
  | setIndex (addr : Addr)
  | jumpOffset (addr : Addr)
  | rand (x : Reg) (nn : Byte)
  | display (x y : Reg) (n : Nibble)
  | skipIfKey (x : Reg)
  | skipIfNotKey (x : Reg)
  | getDelay (x : Reg)
  | waitForKey (x : Reg)
  | setDelay (x : Reg)
  | setSound (x : Reg)
  | addIndex (x : Reg)
  | getFontChar (x : Reg)
  | binToDec (x : Reg)
  | storeMem (x : Reg)
  | loadMem (x : Reg)
  deriving DecidableEq, Repr

end Sys2Proof
end

