-- ==== Sys2Proof/Decode.lean ====
section
/-! DEFINITION. The decoder (spec/30_encoding.md R90 to R104), total over all words and over all byte lists, and
after it the encoder. The opcode numbers are those of R101 (general knowledge, D7; log 12). -/

namespace Sys2Proof

/-- Why bytes are no instruction: `miss` is the decoder's "DecodeFailure carrying the offending word" (R94), the one
class of words that are not instructions (R102); `truncated`: fewer than the two bytes of an instruction (R90). -/
inductive Reject where
  | miss (w : Word)
  | truncated
  deriving DecidableEq, Repr

/-! ### Fields (R91) -/

/-- Category, bits 15 to 12. -/
def catOf (w : Word) : Nibble := w.extractLsb' 12 4

/-- X, bits 11 to 8, as a register number. -/
def xOf (w : Word) : Reg := (w.extractLsb' 8 4).toFin

/-- Y, bits 7 to 4, as a register number. -/
def yOf (w : Word) : Reg := (w.extractLsb' 4 4).toFin

/-- N, bits 3 to 0. -/
def nOf (w : Word) : Nibble := w.extractLsb' 0 4

/-- NN, bits 7 to 0. -/
def nnOf (w : Word) : Byte := w.extractLsb' 0 8

/-- NNN, bits 11 to 0. -/
def nnnOf (w : Word) : Addr := w.extractLsb' 0 12

/-! ### Sub-dispatch (R96 to R99) -/

/-- Category 0x0: two literal words, everything else is rejected (R96). -/
def decodeLiteral (w : Word) : Except Reject Instr :=
  if w = 0x00E0 then .ok .clear
  else if w = 0x00EE then .ok .ret
  else .error (.miss w)

/-- Categories 0x5 and 0x9: the low nibble must be 0 (R100; D8; log 13). -/
def decodeRegSkip (i : Reg → Reg → Instr) (w : Word) : Except Reject Instr :=
  if nOf w = 0x0 then .ok (i (xOf w) (yOf w)) else .error (.miss w)

/-- Category 0x8: nine operations selected by N (R97). -/
def decodeAlu (w : Word) : Except Reject Instr :=
  match nOf w with
  | 0x0 => .ok (.setReg (xOf w) (yOf w))
  | 0x1 => .ok (.or (xOf w) (yOf w))
  | 0x2 => .ok (.and (xOf w) (yOf w))
  | 0x3 => .ok (.xor (xOf w) (yOf w))
  | 0x4 => .ok (.addReg (xOf w) (yOf w))
  | 0x5 => .ok (.sub1 (xOf w) (yOf w))
  | 0x6 => .ok (.shr (xOf w) (yOf w))
  | 0x7 => .ok (.sub2 (xOf w) (yOf w))
  | 0xE => .ok (.shl (xOf w) (yOf w))
  | _ => .error (.miss w)

/-- Category 0xE: two key skips selected by NN (R98). -/
def decodeKeySkip (w : Word) : Except Reject Instr :=
  match nnOf w with
  | 0x9E => .ok (.skipIfKey (xOf w))
  | 0xA1 => .ok (.skipIfNotKey (xOf w))
  | _ => .error (.miss w)

/-- Category 0xF: nine operations selected by NN (R99). -/
def decodeMisc (w : Word) : Except Reject Instr :=
  match nnOf w with
  | 0x07 => .ok (.getDelay (xOf w))
  | 0x0A => .ok (.waitForKey (xOf w))
  | 0x15 => .ok (.setDelay (xOf w))
  | 0x18 => .ok (.setSound (xOf w))
  | 0x1E => .ok (.addIndex (xOf w))
  | 0x29 => .ok (.getFontChar (xOf w))
  | 0x33 => .ok (.binToDec (xOf w))
  | 0x55 => .ok (.storeMem (xOf w))
  | 0x65 => .ok (.loadMem (xOf w))
  | _ => .error (.miss w)

/-! ### The decoder (R94) -/

/-- "Pure, total over all 65536 inputs — never fails with a fault, only returns a typed miss." "Dispatch on category
first". The last arm is category 0xF: a nibble has sixteen values. -/
def decode (w : Word) : Except Reject Instr :=
  match catOf w with
  | 0x0 => decodeLiteral w
  | 0x1 => .ok (.jump (nnnOf w))
  | 0x2 => .ok (.call (nnnOf w))
  | 0x3 => .ok (.skipEqVal (xOf w) (nnOf w))
  | 0x4 => .ok (.skipNeVal (xOf w) (nnOf w))
  | 0x5 => decodeRegSkip .skipEqReg w
  | 0x6 => .ok (.set (xOf w) (nnOf w))
  | 0x7 => .ok (.add (xOf w) (nnOf w))
  | 0x8 => decodeAlu w
  | 0x9 => decodeRegSkip .skipNeReg w
  | 0xA => .ok (.setIndex (nnnOf w))
  | 0xB => .ok (.jumpOffset (nnnOf w))
  | 0xC => .ok (.rand (xOf w) (nnOf w))
  | 0xD => .ok (.display (xOf w) (yOf w) (nOf w))
  | 0xE => decodeKeySkip w
  | _ => decodeMisc w

/-! ### Bytes (R90; spec/20_memory.md R62) -/

/-- The word of two bytes in memory order: "the byte at `pc` is the high byte" (R62; D1; log 24). -/
def joinBytes (first second : Byte) : Word := first ++ second

/-- The byte of a word at the lower address. -/
def firstByte (w : Word) : Byte := w.extractLsb' 8 8

/-- The byte of a word at the higher address. -/
def secondByte (w : Word) : Byte := w.extractLsb' 0 8

/-- The instruction at the head of a byte list, with the bytes after it. -/
def decodeBytes : List Byte → Except Reject (Instr × List Byte)
  | first :: second :: rest =>
    match decode (joinBytes first second) with
    | .ok i => .ok (i, rest)
    | .error e => .error e
  | _ => .error .truncated

/-! ### The encoder: the six formats of R92, the numbers of R101 -/

/-- A register number as the 4-bit field that names it. -/
def regField (r : Reg) : Nibble := BitVec.ofFin r

/-- Format `NNN`. -/
def formatNNN (cat : Nibble) (a : Addr) : Word := cat ++ a

/-- Format `XNN`, and format `Xnn` with the sub-opcode in place of NN. -/
def formatXNN (cat : Nibble) (x : Reg) (nn : Byte) : Word := cat ++ regField x ++ nn

/-- Format `XYN`, and format `XYn` with the sub-opcode in place of N. -/
def formatXYN (cat : Nibble) (x y : Reg) (n : Nibble) : Word := cat ++ regField x ++ regField y ++ n

/-- The word of an instruction (R101). -/
def encode : Instr → Word
  | .clear => 0x00E0
  | .ret => 0x00EE
  | .jump a => formatNNN 0x1 a
  | .call a => formatNNN 0x2 a
  | .skipEqVal x nn => formatXNN 0x3 x nn
  | .skipNeVal x nn => formatXNN 0x4 x nn
  | .skipEqReg x y => formatXYN 0x5 x y 0x0
  | .set x nn => formatXNN 0x6 x nn
  | .add x nn => formatXNN 0x7 x nn
  | .setReg x y => formatXYN 0x8 x y 0x0
  | .or x y => formatXYN 0x8 x y 0x1
  | .and x y => formatXYN 0x8 x y 0x2
  | .xor x y => formatXYN 0x8 x y 0x3
  | .addReg x y => formatXYN 0x8 x y 0x4
  | .sub1 x y => formatXYN 0x8 x y 0x5
  | .shr x y => formatXYN 0x8 x y 0x6
  | .sub2 x y => formatXYN 0x8 x y 0x7
  | .shl x y => formatXYN 0x8 x y 0xE
  | .skipNeReg x y => formatXYN 0x9 x y 0x0
  | .setIndex a => formatNNN 0xA a
  | .jumpOffset a => formatNNN 0xB a
  | .rand x nn => formatXNN 0xC x nn
  | .display x y n => formatXYN 0xD x y n
  | .skipIfKey x => formatXNN 0xE x 0x9E
  | .skipIfNotKey x => formatXNN 0xE x 0xA1
  | .getDelay x => formatXNN 0xF x 0x07
  | .waitForKey x => formatXNN 0xF x 0x0A
  | .setDelay x => formatXNN 0xF x 0x15
  | .setSound x => formatXNN 0xF x 0x18
  | .addIndex x => formatXNN 0xF x 0x1E
  | .getFontChar x => formatXNN 0xF x 0x29
  | .binToDec x => formatXNN 0xF x 0x33
  | .storeMem x => formatXNN 0xF x 0x55
  | .loadMem x => formatXNN 0xF x 0x65

/-- The bytes of an instruction in memory order (R62). -/
def encodeBytes (i : Instr) : List Byte := [firstByte (encode i), secondByte (encode i)]

/-! ### The host's view of the decoder -/

/-- The instruction this decoder reads from an instruction whose table bits are `w`: one 16-bit word, bits above
`nbits` zero, laid out as the hardware stores it (R62). -/
def decodeTableWord (nbits w : Nat) : Option Instr :=
  let word : Word := BitVec.ofNat 16 (w % 2 ^ nbits)
  match decodeBytes [firstByte word, secondByte word] with
  | .ok (i, _) => some i
  | .error _ => none

/-! ### The opcode table (R101), row by row, to hold the decoder against -/

/-- A row: "a word `w` selects the row when `w & mask = match`" (R101). -/
structure OpcodeRow where
  mnemonic : String
  pattern  : Word
  mask     : Word
  deriving DecidableEq, Repr

/-- The row of an instruction in R101. -/
def Instr.row : Instr → OpcodeRow
  | .clear => ⟨"Clear", 0x00E0, 0xFFFF⟩
  | .ret => ⟨"Return", 0x00EE, 0xFFFF⟩
  | .jump _ => ⟨"Jump", 0x1000, 0xF000⟩
  | .call _ => ⟨"Call", 0x2000, 0xF000⟩
  | .skipEqVal _ _ => ⟨"SkipEqVal", 0x3000, 0xF000⟩
  | .skipNeVal _ _ => ⟨"SkipNeVal", 0x4000, 0xF000⟩
  | .skipEqReg _ _ => ⟨"SkipEqReg", 0x5000, 0xF00F⟩
  | .set _ _ => ⟨"Set", 0x6000, 0xF000⟩
  | .add _ _ => ⟨"Add", 0x7000, 0xF000⟩
  | .setReg _ _ => ⟨"SetReg", 0x8000, 0xF00F⟩
  | .or _ _ => ⟨"Or", 0x8001, 0xF00F⟩
  | .and _ _ => ⟨"And", 0x8002, 0xF00F⟩
  | .xor _ _ => ⟨"Xor", 0x8003, 0xF00F⟩
  | .addReg _ _ => ⟨"AddReg", 0x8004, 0xF00F⟩
  | .sub1 _ _ => ⟨"Sub1", 0x8005, 0xF00F⟩
  | .shr _ _ => ⟨"Shr", 0x8006, 0xF00F⟩
  | .sub2 _ _ => ⟨"Sub2", 0x8007, 0xF00F⟩
  | .shl _ _ => ⟨"Shl", 0x800E, 0xF00F⟩
  | .skipNeReg _ _ => ⟨"SkipNeReg", 0x9000, 0xF00F⟩
  | .setIndex _ => ⟨"SetIndex", 0xA000, 0xF000⟩
  | .jumpOffset _ => ⟨"JumpOffset", 0xB000, 0xF000⟩
  | .rand _ _ => ⟨"Rand", 0xC000, 0xF000⟩
  | .display _ _ _ => ⟨"Display", 0xD000, 0xF000⟩
  | .skipIfKey _ => ⟨"SkipIfKey", 0xE09E, 0xF0FF⟩
  | .skipIfNotKey _ => ⟨"SkipIfNotKey", 0xE0A1, 0xF0FF⟩
  | .getDelay _ => ⟨"GetDelay", 0xF007, 0xF0FF⟩
  | .waitForKey _ => ⟨"WaitForKey", 0xF00A, 0xF0FF⟩
  | .setDelay _ => ⟨"SetDelay", 0xF015, 0xF0FF⟩
  | .setSound _ => ⟨"SetSound", 0xF018, 0xF0FF⟩
  | .addIndex _ => ⟨"AddIndex", 0xF01E, 0xF0FF⟩
  | .getFontChar _ => ⟨"GetFontChar", 0xF029, 0xF0FF⟩
  | .binToDec _ => ⟨"BinToDec", 0xF033, 0xF0FF⟩
  | .storeMem _ => ⟨"StoreMem", 0xF055, 0xF0FF⟩
  | .loadMem _ => ⟨"LoadMem", 0xF065, 0xF0FF⟩

/-- One instruction of each row, in opcode order. -/
def rowSamples : List Instr :=
  [.clear, .ret, .jump 0, .call 0, .skipEqVal 0 0, .skipNeVal 0 0, .skipEqReg 0 0, .set 0 0, .add 0 0,
   .setReg 0 0, .or 0 0, .and 0 0, .xor 0 0, .addReg 0 0, .sub1 0 0, .shr 0 0, .sub2 0 0, .shl 0 0,
   .skipNeReg 0 0, .setIndex 0, .jumpOffset 0, .rand 0 0, .display 0 0 0, .skipIfKey 0, .skipIfNotKey 0,
   .getDelay 0, .waitForKey 0, .setDelay 0, .setSound 0, .addIndex 0, .getFontChar 0, .binToDec 0,
   .storeMem 0, .loadMem 0]

/-- The 34 rows of R101 in opcode order. -/
def opcodeTable : List OpcodeRow := rowSamples.map Instr.row

end Sys2Proof
end

