-- ==== Sys2Proof/Config.lean ====
section
/-! DEFINITION. What the hardware fixes (spec/00_scope.md R5), the palette (spec/10_state.md R36), and what the
outside supplies to each move of the block (spec/10_state.md R40, spec/40_machine_cycle.md R125 to R127, R130,
R131): the inputs are free values, drawn from `Config.input`, a constant with no body. -/

namespace Sys2Proof

/-- `MEM_SIZE` (R5, R60; the spec's decision D2; log 9). -/
def Config.memSize : Nat := 4096

/-- `PROG_BASE` (R5, R68). -/
def Config.progBase : Nat := 0x200

/-- `PROG_MAX` = `MEM_SIZE` - `PROG_BASE` = 3584 (R5, R296). -/
def Config.progMax : Nat := Config.memSize - Config.progBase

/-- `PC_RESET` (R5, R27; the spec's decision D5; log 14). -/
def Config.pcReset : Word := 0x200

/-- `STACK_DEPTH` (R5, R29). -/
def Config.stackDepth : Nat := 16

/-- The palette is configuration, not state (R36): two 24-bit RGB colours. -/
structure Palette where
  foreground : BitVec 24
  background : BitVec 24
  deriving DecidableEq, Repr

/-- "default white-on-black" (R36). -/
def Palette.default : Palette := ⟨0xFFFFFF, 0x000000⟩

/-- Who makes the next move of the block (R120). `reset` is the outside asserting the reset input with a program
image (R125, R290). DESIGN CHOICE, safe (log 1, log 7): the three are moves of one step function. -/
inductive Turn where
  | instruction
  | timer
  | reset (image : List Byte)
  deriving DecidableEq, Repr, Inhabited

/-- Everything the outside supplies to one move (R125). -/
structure Input where
  /-- which agent moves: the free interleaving of R130 -/
  turn    : Turn
  /-- `key_down[15:0]`, sampled by the instruction of this move (R126) -/
  keyDown : BitVec 16
  /-- the input source's choice among several pressed keys (R126; log 3) -/
  keyPick : Reg
  /-- `rand_byte`, sampled by the instruction of this move (R127) -/
  rand    : Byte
  /-- `close`: the presentation surface was closed (R131) -/
  close   : Bool
  deriving DecidableEq, Repr, Inhabited

/-- The FREE VALUE behind every input: input number `n` of a run. It has no body, so no proof can see what it is
(R126, R127 and R130 leave every one of these to the outside; log 2). -/
opaque Config.input : Nat → Input

end Sys2Proof
end

