-- ==== Sys2Proof/Machine/State.lean ====
section
/-! DEFINITION. The state of the block as plain data (spec/10_state.md), the reasons a step can stop, and the state
after reset (spec/10_state.md R41). -/

namespace Sys2Proof.Machine

/-- Memory (spec/10_state.md R37, spec/20_memory.md R60): the cells that differ from the reset contents, as a list of
(address, byte) pairs in the one canonical form `Memory.wf` (Machine/Ops.lean) states. -/
structure Memory where
  cells : List Host.Cell
  deriving DecidableEq, Repr

/-- The framebuffer (spec/10_state.md R34): 32 rows of 64 cells, `true` = lit = foreground (D24; log 26).
Row 0 is topmost, column 0 leftmost. -/
structure Framebuffer where
  rows : Vector (Vector Bool 64) 32
  deriving DecidableEq, Repr

/-- Every cell unlit (spec/44_display.md R221). -/
def Framebuffer.blank : Framebuffer := ⟨Vector.replicate 32 (Vector.replicate 64 false)⟩

/-- The names the fault latch can hold (spec/10_state.md R39, spec/60_exceptions.md R260). -/
inductive FaultCode where
  | stackOverflow
  | stackUnderflow
  | memOutOfRange
  deriving DecidableEq, Repr

/-- What the block emits during a run, kept in order (log 25): the decode-miss report with its word
(spec/60_exceptions.md R261), the present request with the buffer the sink takes (spec/40_machine_cycle.md R129), and
the address of an out-of-range access, "for a model's diagnostics only" (spec/60_exceptions.md R260). -/
inductive Event where
  | decodeMiss (w : Word)
  | present (frame : Framebuffer)
  | outOfRange (addr : Nat)
  deriving DecidableEq, Repr

/-- Everything the spec gives the block (spec/10_state.md, the tuple at its head), the two output signals
`load_error` and `display_changed`, and the model's own bookkeeping of outputs and inputs. -/
@[ext]
structure State where
  /-- general registers V0 to VF (R20) -/
  v              : Vector Byte 16
  /-- the index register `I` (R24) -/
  index          : Word
  /-- the program counter (R26) -/
  pc             : Word
  /-- the call stack, oldest entry first; its length is the depth (R29) -/
  stack          : List Word
  /-- the delay timer `DT` (R31) -/
  dt             : Byte
  /-- the sound timer `ST` (R31) -/
  st             : Byte
  /-- memory (R37) -/
  mem            : Memory
  /-- the framebuffer `FB` (R34) -/
  fb             : Framebuffer
  /-- display changed since the last present (R38) -/
  dirty          : Bool
  /-- the fault latch, `none` = `None` (R39) -/
  fault          : Option FaultCode
  /-- the result signal of the last executed instruction (spec/40_machine_cycle.md R124; log 22) -/
  displayChanged : Bool
  /-- the `load_error` output (spec/70_reset_and_hazards.md R296; log 8) -/
  loadError      : Bool
  /-- the model's own: outputs of this run, oldest first (log 25) -/
  trace          : List Event
  /-- the model's own: inputs already fixed for the coming moves, next one first (log 2) -/
  feed           : List Input
  /-- the model's own: how many inputs have been taken (log 2) -/
  samples        : Nat
  deriving DecidableEq, Repr

/-- Why the run stops. None of these is raised by an instruction: an instruction that raises a fault of the spec
answers a NEXT state with the latch set (spec/40_machine_cycle.md R123; log 5). -/
inductive Fault where
  /-- Raised by an instruction turn of a block whose fault latch is set: "no instruction step is enabled until reset"
  (spec/40_machine_cycle.md R131). Safe: the hardware takes no instruction step there either. -/
  | halted (c : FaultCode)
  /-- Raised by an instruction turn at which the outside signals `close`: "the run is over"
  (spec/40_machine_cycle.md R131). Safe. -/
  | closed
  /-- Raised by an instruction turn of a block whose program was refused: "the instruction agent is never enabled"
  (spec/70_reset_and_hazards.md R296). Safe. -/
  | loadRefused
  deriving DecidableEq, Repr

/-- Why an instruction has no meaning. Only `exec`'s arms may answer it, and no arm does: every instruction is
modelled. Safe. -/
inductive Refusal where
  | notModelled (mnemonic : String)
  deriving DecidableEq, Repr

/-- The state right after reset with no program image (spec/10_state.md R41): V0 to VF zero by the source's own words,
`I`, the timers, the stack, the framebuffer and `dirty` by D6, the pc by D5 (log 14), memory at its reset contents
(nothing listed; log 10). `displayChanged`, `trace`, `feed` and `samples` are the model's own (log 2, 22, 25). -/
def State.reset : State where
  v              := Vector.replicate 16 0
  index          := 0
  pc             := Config.pcReset
  stack          := []
  dt             := 0
  st             := 0
  mem            := ⟨[]⟩
  fb             := Framebuffer.blank
  dirty          := false
  fault          := none
  displayChanged := false
  loadError      := false
  trace          := []
  feed           := []
  samples        := 0

end Sys2Proof.Machine
end

