-- ==== Sys2Proof/Machine/Font.lean ====
section
/-! DEFINITION. The font and the reset contents of memory (spec/20_memory.md R66, R67, R69): what an address that
memory does not list reads as. -/

namespace Sys2Proof.Machine

/-- `FONT_BASE` (spec/00_scope.md R5). -/
def fontBase : Nat := 0x50

/-- `GLYPH_BYTES` (spec/00_scope.md R5). -/
def glyphBytes : Nat := 5

/-- `FONT_DATA`, the table of spec/20_memory.md R67 row by row (general knowledge, D25; log 11). -/
def fontData : List Byte :=
  [0xF0, 0x90, 0x90, 0x90, 0xF0] ++ [0x20, 0x60, 0x20, 0x20, 0x70] ++
  [0xF0, 0x10, 0xF0, 0x80, 0xF0] ++ [0xF0, 0x10, 0xF0, 0x10, 0xF0] ++
  [0x90, 0x90, 0xF0, 0x10, 0x10] ++ [0xF0, 0x80, 0xF0, 0x10, 0xF0] ++
  [0xF0, 0x80, 0xF0, 0x90, 0xF0] ++ [0xF0, 0x10, 0x20, 0x40, 0x40] ++
  [0xF0, 0x90, 0xF0, 0x90, 0xF0] ++ [0xF0, 0x90, 0xF0, 0x10, 0xF0] ++
  [0xF0, 0x90, 0xF0, 0x90, 0x90] ++ [0xE0, 0x90, 0xE0, 0x90, 0xE0] ++
  [0xF0, 0x80, 0x80, 0x80, 0xF0] ++ [0xE0, 0x90, 0x90, 0x90, 0xE0] ++
  [0xF0, 0x80, 0xF0, 0x80, 0xF0] ++ [0xF0, 0x80, 0xF0, 0x80, 0x80]

/-- The reset contents of memory without a program (R69, R292): the font at 0x050 to 0x09F, 0x00 everywhere else
(D6; log 10). This is what an unlisted address reads as. -/
def initialByte (a : Nat) : Byte :=
  if fontBase ≤ a then fontData.getD (a - fontBase) 0 else 0

end Sys2Proof.Machine
end

