-- ==== Sys2Proof/Machine/Ops.lean ====
section
/-! DEFINITION. The operations every meaning is written with (spec/00_scope.md R8): registers, memory, the call stack,
`raise`, the framebuffer controller, the input ports. -/

namespace Sys2Proof.Machine

/-! ### Registers and the other fields: one home each -/

/-- `V[r]` (spec/10_state.md R20); total, no unset register (R22). -/
def State.getV (s : State) (r : Reg) : Byte := s.v[r]

/-- `V[r] <- b`. -/
def State.setV (s : State) (r : Reg) (b : Byte) : State := { s with v := s.v.set r b }

/-- Register 15, written by the flag-writing instructions (spec/10_state.md R21). -/
def flagReg : Reg := 15

/-- `I <- a`. -/
def State.setIndex (s : State) (a : Word) : State := { s with index := a }

/-- `pc <- a`. -/
def State.setPc (s : State) (a : Word) : State := { s with pc := a }

def State.setStack (s : State) (l : List Word) : State := { s with stack := l }

/-- `DT <- b`. -/
def State.setDt (s : State) (b : Byte) : State := { s with dt := b }

/-- `ST <- b`. -/
def State.setSt (s : State) (b : Byte) : State := { s with st := b }

def State.setMem (s : State) (m : Memory) : State := { s with mem := m }

def State.setFb (s : State) (f : Framebuffer) : State := { s with fb := f }

def State.setDirty (s : State) (b : Bool) : State := { s with dirty := b }

def State.setFault (s : State) (f : Option FaultCode) : State := { s with fault := f }

/-- `display_changed <- b` (spec/40_machine_cycle.md R124). -/
def State.setDisplayChanged (s : State) (b : Bool) : State := { s with displayChanged := b }

/-- An output of the block, recorded in order (log 25). -/
def State.emit (s : State) (e : Event) : State := { s with trace := s.trace ++ [e] }

/-! ### Raising a fault (spec/00_scope.md R8, spec/40_machine_cycle.md R123, spec/60_exceptions.md R269) -/

/-- How a part of an instruction ends: `done` with a result, or `raised`: "stop the instruction at this point, keep
every effect already made" (R8). -/
inductive Flow (α : Type) where
  | done (a : α) (s : State)
  | raised (s : State)
  deriving Repr

/-- The next part of the instruction, unless a fault was raised before it. -/
def Flow.andThen {α β : Type} (f : Flow α) (k : α → State → Flow β) : Flow β :=
  match f with
  | .done a s => k a s
  | .raised s => .raised s

/-- The state an instruction leaves, whether or not it raised a fault. -/
def Flow.final {α : Type} : Flow α → State
  | .done _ s => s
  | .raised s => s

/-- TAKING A FAULT, the one exception mechanism of the block: the latch is set, "no state is saved anywhere, no mode
changes, nothing is pushed, control goes nowhere" (spec/60_exceptions.md R269). The pc stays as it is at the raise
(R123). There is no return from it (R271). -/
def takeFault (c : FaultCode) (s : State) : State := s.setFault (some c)

/-- `raise MemOutOfRange(a)` (spec/60_exceptions.md R264); the address is emitted for diagnostics only (log 25). -/
def takeOutOfRange (a : Nat) (s : State) : State := takeFault .memOutOfRange (s.emit (.outOfRange a))

/-! ### Memory (spec/20_memory.md R63 to R65, R70, R74) -/

/-- The byte a list of cells holds at an address. -/
def readCells : List Host.Cell → Nat → Byte
  | [], a => initialByte a
  | c :: rest, a => if c.1 = a then c.2 else readCells rest a

/-- Put a cell in its place in a rising list. -/
def insertCell (a : Nat) (b : Byte) : List Host.Cell → List Host.Cell
  | [] => [(a, b)]
  | c :: rest => if a < c.1 then (a, b) :: c :: rest else c :: insertCell a b rest

/-- `mem[a]`. -/
def Memory.read (m : Memory) (a : Nat) : Byte := readCells m.cells a

/-- `mem[a] <- b`: the cell is removed, and listed again only if it differs from the reset contents. -/
def Memory.write (m : Memory) (a : Nat) (b : Byte) : Memory :=
  let others := m.cells.filter fun c => decide (c.1 ≠ a)
  ⟨if b = initialByte a then others else insertCell a b others⟩

/-- Bytes at ascending addresses from `a`. -/
def Memory.writeList (m : Memory) (a : Nat) : List Byte → Memory
  | [] => m
  | b :: bs => (m.write a b).writeList (a + 1) bs

/-- The canonical form: addresses strictly rising, every listed byte different from what its address reads as when it
is not listed, every address below `MEM_SIZE` (R60). -/
abbrev Memory.wf (m : Memory) : Prop :=
  m.cells.Pairwise (fun c d => c.1 < d.1) ∧ ∀ c ∈ m.cells, c.2 ≠ initialByte c.1 ∧ c.1 < Config.memSize

/-- The byte at an address, as a run reads it. -/
def State.byteAt (s : State) (a : Nat) : Byte := s.mem.read a

/-- `MemRead(a, 1)` (R63): the address is checked unreduced (R74). -/
def memRead (a : Nat) (s : State) : Flow Byte :=
  if a < Config.memSize then .done (s.mem.read a) s else .raised (takeOutOfRange a s)

/-- `MemWrite(a, 1, b)` (R65). -/
def memWrite (a : Nat) (b : Byte) (s : State) : Flow Unit :=
  if a < Config.memSize then .done () (s.setMem (s.mem.write a b)) else .raised (takeOutOfRange a s)

/-- One byte after another at ascending addresses: the write loops of spec/43_index_memory.md R204 and R205. -/
def storeBytes (a : Nat) : List Byte → State → Flow Unit
  | [], s => .done () s
  | b :: bs, s => (memWrite a b s).andThen fun _ t => storeBytes (a + 1) bs t

/-- Registers loaded one after another, register `k` from `base + k`: the loop of spec/43_index_memory.md R206. -/
def loadRegs (base : Nat) : List Reg → State → Flow Unit
  | [], s => .done () s
  | k :: ks, s => (memRead (base + k) s).andThen fun b t => loadRegs base ks (t.setV k b)

/-! ### The call stack (spec/10_state.md R30) -/

/-- `Push(a)`. A list longer than 16 is no state of the block (R29) and counts as full (log 31). -/
def push (a : Word) (s : State) : Flow Unit :=
  if Config.stackDepth ≤ s.stack.length then .raised (takeFault .stackOverflow s)
  else .done () (s.setStack (s.stack ++ [a]))

/-- `Pop()`. -/
def pop (s : State) : Flow Word :=
  match s.stack.getLast? with
  | none => .raised (takeFault .stackUnderflow s)
  | some a => .done a (s.setStack s.stack.dropLast)

/-! ### The framebuffer controller (spec/44_display.md R220, R221) -/

/-- The two modes of `WritePixel`. -/
inductive PixelMode where
  | clear
  | toggle
  deriving DecidableEq, Repr

/-- `FB[x][y]`. -/
def Framebuffer.get (f : Framebuffer) (x : Fin 64) (y : Fin 32) : Bool := f.rows[y][x]

/-- `FB[x][y] <- lit`. -/
def Framebuffer.put (f : Framebuffer) (x : Fin 64) (y : Fin 32) (lit : Bool) : Framebuffer :=
  ⟨f.rows.set y (f.rows[y].set x lit)⟩

/-- `WritePixel(x, y, mode)` (R220): the new buffer, and `collided`. -/
def writePixel (x : Fin 64) (y : Fin 32) (mode : PixelMode) (f : Framebuffer) : Framebuffer × Bool :=
  match mode with
  | .clear => (f.put x y false, false)
  | .toggle => if f.get x y then (f.put x y false, true) else (f.put x y true, false)

/-- `clear_display` (R221): "After it, `FB[x][y] = false` for every x in 0…63 and y in 0…31." -/
def clearDisplay (_ : Framebuffer) : Framebuffer := Framebuffer.blank

/-! ### The input ports (spec/40_machine_cycle.md R126, R127; log 2, 3, 4) -/

/-- The input of the coming move: the next one already fixed, else the free value. -/
def State.input (s : State) : Input :=
  match s.feed with
  | f :: _ => f
  | [] => Config.input s.samples

/-- One input has been taken. -/
def State.nextInput (s : State) : State := { s with feed := s.feed.tail, samples := s.samples + 1 }

/-- `KeyDown(k)` (R126). -/
def State.isKeyDown (s : State) (k : Reg) : Bool := s.input.keyDown.getLsbD k

/-- The lowest pressed key, if any. -/
def lowestKey (down : BitVec 16) : Option Reg := (List.finRange 16).find? fun k => down.getLsbD k

/-- `AnyKey()` (R126): `none` exactly when no key is down, else a key that is down: the one the input source picked, or
(when its pick is not down) the lowest. Every pressed key can be the answer (D18; log 3). -/
def State.anyKey (s : State) : Option Reg :=
  if s.isKeyDown s.input.keyPick then some s.input.keyPick else lowestKey s.input.keyDown

/-- `RandByte()` (R127). -/
def State.randByte (s : State) : Byte := s.input.rand

end Sys2Proof.Machine
end

