-- ==== Sys2Proof/Machine/Flags.lean ====
section
/-! DEFINITION. The values some instructions write to VF (spec/10_state.md R43), and the order in which result and
flag are written (spec/42_alu.md R183). -/

namespace Sys2Proof.Machine

/-- A flag as a byte: 0x01 or 0x00 (R43). -/
def flagByte (b : Bool) : Byte := if b then 1 else 0

/-- Carry of an 8-bit sum: the exact sum is above 255 (spec/42_alu.md R177). -/
def carry (a b : Byte) : Bool := decide (255 < a.toNat + b.toNat)

/-- No borrow of `a − b`: `a ≥ b` (spec/42_alu.md R178, R180). -/
def noBorrow (a b : Byte) : Bool := decide (b.toNat ≤ a.toNat)

/-- The bit a right shift by one shifts out (spec/42_alu.md R179). -/
def lowBit (b : Byte) : Bool := b.getLsbD 0

/-- The bit a left shift by one shifts out (spec/42_alu.md R181). -/
def highBit (b : Byte) : Bool := b.getLsbD 7

/-- "then the result is written to `V[X]`; then the flag is written to `VF`": with X = F the flag remains
(R183; D9; log 16). -/
def writeWithFlag (x : Reg) (result : Byte) (flag : Bool) (s : State) : State :=
  (s.setV x result).setV flagReg (flagByte flag)

end Sys2Proof.Machine
end

