-- ==== Sys2Proof/Machine/Operands.lean ====
section
/-! DEFINITION. The operand forms (spec/30_encoding.md R93, spec/43_index_memory.md R200): immediates zero-extended,
the one addressing mode `I + k`, the register range V0 to VX, the sprite origin. -/

namespace Sys2Proof.Machine

/-- `zext_16(NNN)` (R93). -/
def zextAddr (a : Addr) : Word := a.setWidth 16

/-- `zext_16` of a byte (spec/00_scope.md R7). -/
def zextByte (b : Byte) : Word := b.setWidth 16

/-- `I` as a data address: effective addresses `I + k` are unbounded naturals (spec/20_memory.md R74). -/
def State.base (s : State) : Nat := s.index.toNat

/-- V0, V1, ..., VX in ascending order (spec/43_index_memory.md R205, R206). -/
def regsThrough (x : Reg) : List Reg := (List.finRange 16).filter fun k => decide (k ≤ x)

/-- The contents of V0 to VX in ascending order. -/
def State.valuesThrough (s : State) (x : Reg) : List Byte := (regsThrough x).map s.getV

/-- `v div 100`, `(v div 10) mod 10`, `v mod 10` (spec/43_index_memory.md R204). -/
def decimalDigits (b : Byte) : List Byte := [b / 100, b / 10 % 10, b % 10]

/-- The address of the glyph of a digit: `0x50 + 5 × digit`, no masking (spec/43_index_memory.md R203; D12; log 19). -/
def glyphAddress (b : Byte) : Word := BitVec.ofNat 16 (fontBase + glyphBytes * b.toNat)

/-- The sprite's column of origin, `V mod 64` (spec/44_display.md R224). -/
def originX (b : Byte) : Nat := b.toNat % 64

/-- The sprite's row of origin, `V mod 32` (spec/44_display.md R224). -/
def originY (b : Byte) : Nat := b.toNat % 32

/-- Bit of column `c` of a sprite byte: column 0 is bit 7, the leftmost pixel (spec/44_display.md R225). -/
def spriteBit (b : Byte) (c : Nat) : Bool := b.getLsbD (7 - c)

end Sys2Proof.Machine
end

