-- ==== Sys2Proof/Machine/Alu.lean ====
section
/-! DEFINITION. Register load, arithmetic, logic, shift and random instructions (spec/42_alu.md). All values are
unsigned bytes and arithmetic wraps modulo 256 (R170). -/

namespace Sys2Proof.Machine

/-- `Set` (R171). -/
def execSet (x : Reg) (nn : Byte) (s : State) : Host.Outcome State Fault Refusal :=
  .next (s.setV x nn)

/-- `Add` (R172): no flag. -/
def execAdd (x : Reg) (nn : Byte) (s : State) : Host.Outcome State Fault Refusal :=
  .next (s.setV x (s.getV x + nn))

/-- `SetReg` (R173). -/
def execSetReg (x y : Reg) (s : State) : Host.Outcome State Fault Refusal :=
  .next (s.setV x (s.getV y))

/-- `Or` (R174): VF not written (D10; log 17). -/
def execOr (x y : Reg) (s : State) : Host.Outcome State Fault Refusal :=
  .next (s.setV x (s.getV x ||| s.getV y))

/-- `And` (R175): VF not written (D10; log 17). -/
def execAnd (x y : Reg) (s : State) : Host.Outcome State Fault Refusal :=
  .next (s.setV x (s.getV x &&& s.getV y))

/-- `Xor` (R176): VF not written (D10; log 17). -/
def execXor (x y : Reg) (s : State) : Host.Outcome State Fault Refusal :=
  .next (s.setV x (s.getV x ^^^ s.getV y))

/-- `AddReg` (R177). -/
def execAddReg (x y : Reg) (s : State) : Host.Outcome State Fault Refusal :=
  .next (writeWithFlag x (s.getV x + s.getV y) (carry (s.getV x) (s.getV y)) s)

/-- `Sub1` (R178): `V[X] - V[Y]`. -/
def execSub1 (x y : Reg) (s : State) : Host.Outcome State Fault Refusal :=
  .next (writeWithFlag x (s.getV x - s.getV y) (noBorrow (s.getV x) (s.getV y)) s)

/-- `Shr` (R179): the value shifted is `V[Y]`. -/
def execShr (x y : Reg) (s : State) : Host.Outcome State Fault Refusal :=
  .next (writeWithFlag x (s.getV y >>> 1) (lowBit (s.getV y)) s)

/-- `Sub2` (R180): `V[Y] - V[X]`. -/
def execSub2 (x y : Reg) (s : State) : Host.Outcome State Fault Refusal :=
  .next (writeWithFlag x (s.getV y - s.getV x) (noBorrow (s.getV y) (s.getV x)) s)

/-- `Shl` (R181): the value shifted is `V[Y]`. -/
def execShl (x y : Reg) (s : State) : Host.Outcome State Fault Refusal :=
  .next (writeWithFlag x (s.getV y <<< 1) (highBit (s.getV y)) s)

/-- `Rand` (R182): one draw under a mask; the draw is a free value (log 4). -/
def execRand (x : Reg) (nn : Byte) (s : State) : Host.Outcome State Fault Refusal :=
  .next (s.setV x (s.randByte &&& nn))

end Sys2Proof.Machine
end

