-- ==== Sys2Proof/Machine/ControlFlow.lean ====
section
/-! DEFINITION. Control-transfer instructions (spec/41_control_flow.md). In every meaning the pc already holds the
address of the following word, `p + 2` (spec/00_scope.md R9). The plain meanings of Jump, Call and the skips are the
spec's D29 (log 15). -/

namespace Sys2Proof.Machine

/-- A skip adds 2 to the already advanced pc; it does not look at the skipped word
(spec/41_control_flow.md R158). -/
def skipIf (c : Bool) (s : State) : State := if c then s.setPc (s.pc + 2) else s

/-- `Return` (R151). -/
def execRet (s : State) : Host.Outcome State Fault Refusal :=
  .next ((pop s).andThen fun a t => .done () (t.setPc a)).final

/-- `Jump` (R152). -/
def execJump (addr : Addr) (s : State) : Host.Outcome State Fault Refusal :=
  .next (s.setPc (zextAddr addr))

/-- `Call` (R153): the advanced pc is pushed; an overflow aborts the jump. -/
def execCall (addr : Addr) (s : State) : Host.Outcome State Fault Refusal :=
  .next ((push s.pc s).andThen fun _ t => .done () (t.setPc (zextAddr addr))).final

/-- `SkipEqVal` (R154). -/
def execSkipEqVal (x : Reg) (nn : Byte) (s : State) : Host.Outcome State Fault Refusal :=
  .next (skipIf (s.getV x == nn) s)

/-- `SkipNeVal` (R155). -/
def execSkipNeVal (x : Reg) (nn : Byte) (s : State) : Host.Outcome State Fault Refusal :=
  .next (skipIf (s.getV x != nn) s)

/-- `SkipEqReg` (R156). -/
def execSkipEqReg (x y : Reg) (s : State) : Host.Outcome State Fault Refusal :=
  .next (skipIf (s.getV x == s.getV y) s)

/-- `SkipNeReg` (R157). -/
def execSkipNeReg (x y : Reg) (s : State) : Host.Outcome State Fault Refusal :=
  .next (skipIf (s.getV x != s.getV y) s)

/-- `JumpOffset` (R159): always V0; the sum is at most 0x10FE and is not reduced modulo 4096. -/
def execJumpOffset (addr : Addr) (s : State) : Host.Outcome State Fault Refusal :=
  .next (s.setPc (zextAddr addr + zextByte (s.getV 0)))

end Sys2Proof.Machine
end

