-- ==== Sys2Proof/Machine/DisplayUnit.lean ====
section
/-! DEFINITION. Display instructions (spec/44_display.md R222 to R229). The loop order, the time the operands are read
and the rows that are read although clipped are the spec's D14 (log 21). -/

namespace Sys2Proof.Machine

/-- One toggled pixel: `collided <- WritePixel(x, y, Toggle)`, then `VF <- (collided ? 1 : 0)` (R223, R226). -/
def togglePixel (x : Fin 64) (y : Fin 32) (s : State) : State :=
  let (f, collided) := writePixel x y .toggle s.fb
  (s.setFb f).setV flagReg (flagByte collided)

/-- Column `c` of a sprite byte drawn at column `x0 + c` of row `y`: a 0 bit, a column past the right edge or a row past
the bottom does nothing (R224, R225). -/
def drawBit (x0 y : Nat) (b : Byte) (s : State) (c : Nat) : State :=
  if spriteBit b c then
    if hx : x0 + c < 64 then
      if hy : y < 32 then togglePixel ⟨x0 + c, hx⟩ ⟨y, hy⟩ s else s
    else s
  else s

/-- The eight columns of a sprite byte, leftmost first (R225). -/
def drawRow (x0 y : Nat) (b : Byte) (s : State) : State := (List.range 8).foldl (drawBit x0 y b) s

/-- The rows of a sprite: each byte is read from `addr` on, whether or not its row is clipped (R229), and drawn at row
`y`, `y + 1`, ...; `n` rows. -/
def drawRows (x0 : Nat) : Nat → Nat → Nat → State → Flow Unit
  | 0, _, _, s => .done () s
  | n + 1, y, addr, s =>
    (memRead addr s).andThen fun b t => drawRows x0 n (y + 1) (addr + 1) (drawRow x0 y b t)

/-- `Clear` (R222). -/
def execClear (s : State) : Host.Outcome State Fault Refusal :=
  .next ((s.setFb (clearDisplay s.fb)).setDisplayChanged true)

/-- `Display` (R223): `V[X]` and `V[Y]` are read once, before the first pixel (R228); `display_changed` is reported
unless a read faults (R227, R229; D15; log 22). -/
def execDisplay (x y : Reg) (n : Nibble) (s : State) : Host.Outcome State Fault Refusal :=
  .next ((drawRows (originX (s.getV x)) n.toNat (originY (s.getV y)) s.base s).andThen
    fun _ t => .done () (t.setDisplayChanged true)).final

end Sys2Proof.Machine
end

