-- ==== Sys2Proof/Machine/IndexMemory.lean ====
section
/-! DEFINITION. Index-register and memory instructions (spec/43_index_memory.md). `I` is never changed by an access
(R200; D13; log 20). -/

namespace Sys2Proof.Machine

/-- `SetIndex` (R201). -/
def execSetIndex (addr : Addr) (s : State) : Host.Outcome State Fault Refusal :=
  .next (s.setIndex (zextAddr addr))

/-- `AddIndex` (R202): modulo 65536, VF not written (D11; log 18). -/
def execAddIndex (x : Reg) (s : State) : Host.Outcome State Fault Refusal :=
  .next (s.setIndex (s.index + zextByte (s.getV x)))

/-- `GetFontChar` (R203). -/
def execGetFontChar (x : Reg) (s : State) : Host.Outcome State Fault Refusal :=
  .next (s.setIndex (glyphAddress (s.getV x)))

/-- `BinToDec` (R204): hundreds, tens, units at `I`, `I + 1`, `I + 2`. -/
def execBinToDec (x : Reg) (s : State) : Host.Outcome State Fault Refusal :=
  .next (storeBytes s.base (decimalDigits (s.getV x)) s).final

/-- `StoreMem` (R205): V0 to VX at `I` to `I + X`. -/
def execStoreMem (x : Reg) (s : State) : Host.Outcome State Fault Refusal :=
  .next (storeBytes s.base (s.valuesThrough x) s).final

/-- `LoadMem` (R206): V0 to VX from `I` to `I + X`. -/
def execLoadMem (x : Reg) (s : State) : Host.Outcome State Fault Refusal :=
  .next (loadRegs s.base (regsThrough x) s).final

end Sys2Proof.Machine
end

