-- ==== Sys2Proof/Machine/KeysTimers.lean ====
section
/-! DEFINITION. Key and timer instructions (spec/45_keys_timers.md). The timer moves are the spec's D29 (log 15). -/

namespace Sys2Proof.Machine

/-- `Pressed(v)`: a register value of 16 or more is no key and is "not pressed"; it is not masked (R247). -/
def State.pressed (s : State) (b : Byte) : Bool :=
  if h : b.toNat < 16 then s.isKeyDown ⟨b.toNat, h⟩ else false

/-- `SkipIfKey` (R240). -/
def execSkipIfKey (x : Reg) (s : State) : Host.Outcome State Fault Refusal :=
  .next (skipIf (s.pressed (s.getV x)) s)

/-- `SkipIfNotKey` (R241). -/
def execSkipIfNotKey (x : Reg) (s : State) : Host.Outcome State Fault Refusal :=
  .next (skipIf (!s.pressed (s.getV x)) s)

/-- `WaitForKey` (R242): the key's number, or back to the same word. -/
def execWaitForKey (x : Reg) (s : State) : Host.Outcome State Fault Refusal :=
  .next (match s.anyKey with
    | some k => s.setV x (BitVec.ofNat 8 k)
    | none => s.setPc (s.pc - 2))

/-- `GetDelay` (R243). -/
def execGetDelay (x : Reg) (s : State) : Host.Outcome State Fault Refusal :=
  .next (s.setV x s.dt)

/-- `SetDelay` (R244). -/
def execSetDelay (x : Reg) (s : State) : Host.Outcome State Fault Refusal :=
  .next (s.setDt (s.getV x))

/-- `SetSound` (R245). -/
def execSetSound (x : Reg) (s : State) : Host.Outcome State Fault Refusal :=
  .next (s.setSt (s.getV x))

end Sys2Proof.Machine
end

