-- ==== Sys2Proof/Machine/Dispatch.lean ====
section
/-! DEFINITION. The meaning of each instruction, one arm per constructor (spec/30_encoding.md R101). -/

namespace Sys2Proof.Machine

def exec (i : Instr) (s : State) : Host.Outcome State Fault Refusal :=
  match i with
  | .clear => Sys2Proof.Machine.execClear s
  | .ret => Sys2Proof.Machine.execRet s
  | .jump addr => Sys2Proof.Machine.execJump addr s
  | .call addr => Sys2Proof.Machine.execCall addr s
  | .skipEqVal x nn => Sys2Proof.Machine.execSkipEqVal x nn s
  | .skipNeVal x nn => Sys2Proof.Machine.execSkipNeVal x nn s
  | .skipEqReg x y => Sys2Proof.Machine.execSkipEqReg x y s
  | .set x nn => Sys2Proof.Machine.execSet x nn s
  | .add x nn => Sys2Proof.Machine.execAdd x nn s
  | .setReg x y => Sys2Proof.Machine.execSetReg x y s
  | .or x y => Sys2Proof.Machine.execOr x y s
  | .and x y => Sys2Proof.Machine.execAnd x y s
  | .xor x y => Sys2Proof.Machine.execXor x y s
  | .addReg x y => Sys2Proof.Machine.execAddReg x y s
  | .sub1 x y => Sys2Proof.Machine.execSub1 x y s
  | .shr x y => Sys2Proof.Machine.execShr x y s
  | .sub2 x y => Sys2Proof.Machine.execSub2 x y s
  | .shl x y => Sys2Proof.Machine.execShl x y s
  | .skipNeReg x y => Sys2Proof.Machine.execSkipNeReg x y s
  | .setIndex addr => Sys2Proof.Machine.execSetIndex addr s
  | .jumpOffset addr => Sys2Proof.Machine.execJumpOffset addr s
  | .rand x nn => Sys2Proof.Machine.execRand x nn s
  | .display x y n => Sys2Proof.Machine.execDisplay x y n s
  | .skipIfKey x => Sys2Proof.Machine.execSkipIfKey x s
  | .skipIfNotKey x => Sys2Proof.Machine.execSkipIfNotKey x s
  | .getDelay x => Sys2Proof.Machine.execGetDelay x s
  | .waitForKey x => Sys2Proof.Machine.execWaitForKey x s
  | .setDelay x => Sys2Proof.Machine.execSetDelay x s
  | .setSound x => Sys2Proof.Machine.execSetSound x s
  | .addIndex x => Sys2Proof.Machine.execAddIndex x s
  | .getFontChar x => Sys2Proof.Machine.execGetFontChar x s
  | .binToDec x => Sys2Proof.Machine.execBinToDec x s
  | .storeMem x => Sys2Proof.Machine.execStoreMem x s
  | .loadMem x => Sys2Proof.Machine.execLoadMem x s

end Sys2Proof.Machine
end

