-- ==== Sys2Proof/WellFormed.lean ====
section
/-! DEFINITION. What may be given to the block. An instruction needs no check: every operand field is a 4-bit
register number, an 8-bit or a 12-bit immediate or a 4-bit height, and its TYPE already says so ("X and Y must each
resolve to a valid register identifier (0–15, always true since they are 4-bit fields)", spec/10_state.md R20;
spec/30_encoding.md R93). The checks are those the spec puts on what the outside hands over at the start of a run:
the program image and the palette. -/

namespace Sys2Proof

/-- A program image fits in the program region (spec/70_reset_and_hazards.md R296: `L ≤ PROG_MAX`). -/
def imageFits (image : List Byte) : Bool := decide (image.length ≤ Config.progMax)

/-- "This spec requires foreground ≠ background" (spec/10_state.md R36). -/
def Palette.wellFormed (p : Palette) : Bool := decide (p.foreground ≠ p.background)

/-- Every instruction value is well formed (R20, R93): no operand value is reserved, undefined or out of range. -/
def Instr.wellFormed (_ : Instr) : Bool := true

end Sys2Proof
end

