-- ==== Sys2Proof/Machine/Cycle.lean ====
section
/-! DEFINITION. The moves of the block (spec/40_machine_cycle.md): the instruction step, the timer tick, reset and
program load (spec/70_reset_and_hazards.md), the output ports. Step.lean only calls these. -/

namespace Sys2Proof.Machine

/-! ### The instruction step (R121) -/

/-- The fetch is in range: both bytes exist (R121 line 1; D3; log 9). -/
def State.canFetch (s : State) : Bool := decide (s.pc.toNat + 1 < Config.memSize)

/-- `MemRead(p, 2)`: the two bytes at the pc, big-endian (spec/20_memory.md R62, R64; D1; log 24). -/
def State.fetched (s : State) : Word := joinBytes (s.byteAt s.pc.toNat) (s.byteAt (s.pc.toNat + 1))

/-- R121 lines 3 and 5: the pc is advanced before decode, `display_changed` is false. -/
def State.advance (s : State) : State := (s.setPc (s.pc + 2)).setDisplayChanged false

/-- R121 line 7: `if display_changed then dirty <- true`. -/
def latchDirty (s : State) : State := if s.displayChanged then s.setDirty true else s

/-- R121 line 7, after an instruction: a stop is passed on. -/
def finishInstruction : Host.Outcome State Fault Refusal → Host.Outcome State Fault Refusal
  | .next t => .next (latchDirty t)
  | .fault f => .fault f
  | .refused r => .refused r

/-- Execute the fetched word at the advanced state, or report a decode miss (R121 line 6, R122). -/
def runWord (w : Word) (s : State) : Host.Outcome State Fault Refusal :=
  match decode w with
  | .ok i => finishInstruction (exec i s)
  | .error _ => .next (s.emit (.decodeMiss w))

/-- One step of the instruction agent (R121); a fetch out of range faults with the pc unchanged. -/
def instructionStep (s : State) : Host.Outcome State Fault Refusal :=
  if s.canFetch then runWord s.fetched s.advance
  else .next (takeOutOfRange s.pc.toNat s)

/-- The instruction agent's turn: enabled when no fault is latched, the program was not refused and `close` is not
signalled (R131, spec/70_reset_and_hazards.md R296; log 5, 6, 8). -/
def instructionTurn (s : State) : Host.Outcome State Fault Refusal :=
  if s.loadError then .fault .loadRefused
  else match s.fault with
    | some c => .fault (.halted c)
    | none => if s.input.close then .fault .closed else instructionStep s

/-! ### The timer step and presentation (R128, R129) -/

/-- A timer counts down to zero and stays there (spec/10_state.md R32). -/
def countDown (b : Byte) : Byte := if b = 0 then 0 else b - 1

/-- R128 line 3: request a present of the buffer as it stands, and clear `dirty`. -/
def presentIfDirty (s : State) : State :=
  if s.dirty then (s.emit (.present s.fb)).setDirty false else s

/-- One timer tick (R128). It also happens after a fault (D16; log 27). -/
def timerTick (s : State) : State :=
  presentIfDirty ((s.setDt (countDown s.dt)).setSt (countDown s.st))

/-! ### Reset and program load (spec/70_reset_and_hazards.md R290 to R296) -/

/-- The block right after reset with a program image: copied verbatim to 0x200 (R295), or refused when it is too long,
memory then holding only zeros and the font (R296). -/
def State.boot (image : List Byte) : State :=
  if imageFits image then
    State.reset.setMem (State.reset.mem.writeList Config.progBase image)
  else { State.reset with loadError := true }

/-- Asserting `reset` starts a new run from the same reset state (R290), whatever the state was; only the model's own
input bookkeeping goes on (log 7). -/
def resetTurn (image : List Byte) (s : State) : State :=
  { State.boot image with feed := s.feed, samples := s.samples }

/-! ### One move -/

/-- After a move, one input has been taken (log 2). -/
def takeInput : Host.Outcome State Fault Refusal → Host.Outcome State Fault Refusal
  | .next t => .next t.nextInput
  | .fault f => .fault f
  | .refused r => .refused r

/-- One move of the block: the agent whose turn it is (R120, R130; log 1). -/
def move (s : State) : Host.Outcome State Fault Refusal :=
  takeInput (match s.input.turn with
    | .instruction => instructionTurn s
    | .timer => .next (timerTick s)
    | .reset image => .next (resetTurn image s))

/-! ### The end of a run (R132; log 32) -/

/-- The program is at its end: the pc holds the address of a `Jump` to that same address, the end the spec suggests
where "a model must define the end of a run itself" (R132; D27). A faulted state is no end (spec/60_exceptions.md R269),
nor is one whose program was refused (spec/70_reset_and_hazards.md R296). -/
def State.atEnd (s : State) : Bool :=
  s.canFetch && s.fault.isNone && !s.loadError &&
    match decode s.fetched with
    | .ok i => decide (i = .jump (s.pc.setWidth 12))
    | .error _ => false

/-! ### Output ports (R125, R129, spec/60_exceptions.md R266) -/

/-- The code on the `fault` output (R266; D26; log 28). -/
def faultPort (s : State) : BitVec 2 :=
  match s.fault with
  | none => 0
  | some .stackOverflow => 1
  | some .stackUnderflow => 2
  | some .memOutOfRange => 3

/-- The colour the presentation sink receives for a cell (spec/10_state.md R36). -/
def Framebuffer.colour (f : Framebuffer) (p : Palette) (x : Fin 64) (y : Fin 32) : BitVec 24 :=
  if f.get x y then p.foreground else p.background

/-! ### Placing one instruction (log 29) -/

/-- An input that gives the instruction agent the turn, everything else as it was. -/
def Input.forInstruction (f : Input) : Input := { f with turn := .instruction, close := false }

/-- A pc the fetch accepts: the state's own where it can fetch, else the reset value. -/
def State.fetchablePc (s : State) : Word := if s.canFetch then s.pc else Config.pcReset

/-- The word stored where the next fetch reads, the instruction agent enabled and next to move. -/
def State.placeWord (s : State) (w : Word) : State :=
  { s with
    pc := s.fetchablePc
    mem := s.mem.writeList s.fetchablePc.toNat [firstByte w, secondByte w]
    fault := none
    loadError := false
    feed := Input.forInstruction s.input :: s.feed.tail }

end Sys2Proof.Machine
end

