-- ==== Sys2Proof/Machine/Step.lean ====
section
/-! DEFINITION. One step of the block and the placing of one instruction for it. -/

namespace Sys2Proof.Machine

/-- One step: one move of the agent whose turn it is (spec/40_machine_cycle.md R120, R121, R128). -/
def step (s : State) : Host.Outcome State Fault Refusal := move s

/-- `s` with the instruction of table bits `w` (bits above `nbits` zero) where the next step fetches, and the next step
the instruction agent's (log 29). -/
def State.withFetchWord (s : State) (nbits w : Nat) : State := s.placeWord (BitVec.ofNat 16 (w % 2 ^ nbits))

end Sys2Proof.Machine
end

