-- ==== Sys2Proof/Safety.lean ====
section
/-! DEFINITION. What claims about the block are stated in: the invariant every step keeps, a safe run, the end of a run, and the frames
("only this changed") of the instruction families. -/

namespace Sys2Proof.Machine

/-- The invariant of the block: memory has its canonical form (spec/20_memory.md R60), the call stack holds at most 16
entries (spec/10_state.md R29), each "some earlier `p + 2` and … at most 0x1000" (spec/41_control_flow.md R151), and the
pc never passes 0x10FE (spec/10_state.md R28), so that its wrap "can never be reached" (R27). -/
def State.Inv (s : State) : Prop :=
  s.mem.wf ∧ s.stack.length ≤ Config.stackDepth ∧ (∀ a ∈ s.stack, a.toNat ≤ 0x1000) ∧ s.pc.toNat ≤ 0x10FE

/-- A state of a safe run: no fault latched ("a faulted state is never a final state of a run",
spec/60_exceptions.md R269), the program accepted (spec/70_reset_and_hazards.md R296), no decode miss reported
(spec/93_implementation_defined.md U2). -/
def State.Safe (s : State) : Prop :=
  s.fault = none ∧ s.loadError = false ∧ ∀ w, Event.decodeMiss w ∉ s.trace

/-- The run from `s` ends in `t` after `n` moves: `t` is the FIRST state in which the pc holds the address of a `Jump` to
that same address (spec/40_machine_cycle.md R132; D27; log 32). A run that is closed or faults before has no such end;
it stops in `Fault.closed` or `Fault.halted`. -/
def EndsAfter (n : Nat) (s t : State) : Prop :=
  Host.Core.run Sys2Proof.core n s = .next t ∧ t.atEnd = true ∧
    ∀ k u, k < n → Host.Core.run Sys2Proof.core k s = .next u → u.atEnd = false

/-! ### Frames: between `s` and `t` nothing changed but what the name says; every byte of memory reads as before -/

/-- Every field but the general registers is unchanged, and so is every register not in `written`. -/
def OnlyRegisters (written : Reg → Prop) (s t : State) : Prop :=
  (∀ r, ¬ written r → t.getV r = s.getV r) ∧ t = { s with v := t.v } ∧ ∀ a, t.byteAt a = s.byteAt a

/-- Every field but the pc is unchanged. -/
def OnlyPc (s t : State) : Prop := t = { s with pc := t.pc } ∧ ∀ a, t.byteAt a = s.byteAt a

/-- Every field but the index register is unchanged. -/
def OnlyIndex (s t : State) : Prop := t = { s with index := t.index } ∧ ∀ a, t.byteAt a = s.byteAt a

end Sys2Proof.Machine
end

