-- ==== Sys2Proof/Certificates/Slice0/Obligations.lean ====
section
/-! DEFINITION. The statements for the provers, in the order of spec/: encoding, the machine cycle, reset, the
invariant, each instruction family, and rules of the whole machine. Where a statement rests on one of the spec's own
decisions D<n> (spec/92_eei_decisions.md), its docstring says so. In all of them the opcode numbers of the decode clauses
are the spec's D7 (log 12), the strict low nibble of 5XYn and 9XYn its D8 (log 13), the byte order of a fetched word its D1 (log 24), the fault of an access out of range its D3
(log 9), and that a move takes its input from `feed` or `Config.input` is the model's (log 1, 2). -/

open Sys2Proof Sys2Proof.Machine

namespace Sys2Proof.Claims

/-- The instruction agent makes the next move and is enabled, and its fetch is in range
(spec/40_machine_cycle.md R121, R131). -/
def Fetches (s : State) : Prop :=
  s.input.turn = .instruction ∧ s.input.close = false ∧ s.fault = none ∧ s.loadError = false ∧ s.pc.toNat + 1 < 4096

/-- The two bytes at the pc, the first one high (spec/20_memory.md R62, R64). -/
def wordAtPc (s : State) : Word := s.byteAt s.pc.toNat ++ s.byteAt (s.pc.toNat + 1)

/-- `i` completes from `s`, leaves `result` in register `x` and changes no other register, no other field and no byte
of memory. -/
def WritesRegister (i : Instr) (s : State) (x : Reg) (result : Byte) : Prop :=
  ∃ t, exec i s = .next t ∧ t.getV x = result ∧ OnlyRegisters (fun r => r = x) s t

/-- `i` completes from `s`, leaves `result` in register `x` unless `x` is VF, leaves `flag` in VF, and changes nothing
else. -/
def WritesRegisterAndFlag (i : Instr) (s : State) (x : Reg) (result flag : Nat) : Prop :=
  ∃ t, exec i s = .next t ∧ (x ≠ 15 → (t.getV x).toNat = result) ∧ (t.getV 15).toNat = flag ∧
    OnlyRegisters (fun r => r = x ∨ r = 15) s t

/-- `i` completes from `s`: the pc skips one instruction when `c` holds, else stays, and nothing else changes. -/
def SkipsWhen (i : Instr) (s : State) (c : Prop) : Prop :=
  ∃ t, exec i s = .next t ∧ (c → t.pc = s.pc + 2) ∧ (¬ c → t.pc = s.pc) ∧ OnlyPc s t

/-- Push one value after another (spec/10_state.md R30). -/
def pushAll : List Word → State → Flow Unit
  | [], s => .done () s
  | a :: as, s => (push a s).andThen fun _ t => pushAll as t

/-- `WritePixel(x, y, Clear)` on one cell after another (spec/44_display.md R221). -/
def clearCells (cells : List (Fin 64 × Fin 32)) (f : Framebuffer) : Framebuffer :=
  cells.foldl (fun g p => (writePixel p.1 p.2 .clear g).1) f

/-- A set bit of one of the first `rows` sprite rows lands on cell (cx, cy), unclipped: the sprite at `I`, its origin
taken from `V[X]` and `V[Y]` (spec/44_display.md R224, R225). -/
def covered (s : State) (x y : Reg) (rows : Nat) (cx : Fin 64) (cy : Fin 32) : Bool :=
  let x0 := (s.getV x).toNat % 64
  let y0 := (s.getV y).toNat % 32
  decide (x0 ≤ cx ∧ (cx : Nat) < x0 + 8 ∧ y0 ≤ cy ∧ (cy : Nat) < y0 + rows) &&
    (s.byteAt (s.base + (cy - y0))).getLsbD (7 - (cx - x0))

/-- The cells a draw of `rows` rows toggles, in the order of spec/44_display.md R225: rows top to bottom, inside a row
left to right. -/
def toggledCells (s : State) (x y : Reg) (rows : Nat) : List (Fin 64 × Fin 32) :=
  (List.finRange 32).flatMap fun cy =>
    (List.finRange 64).filterMap fun cx => if covered s x y rows cx cy then some (cx, cy) else none

/-- The general registers an instruction may write (spec/10_state.md R43, and the instruction rules). -/
def mayWrite : Instr → Reg → Prop
  | .set x _, r | .add x _, r | .setReg x _, r | .or x _, r | .and x _, r | .xor x _, r | .rand x _, r => r = x
  | .getDelay x, r | .waitForKey x, r => r = x
  | .addReg x _, r | .sub1 x _, r | .shr x _, r | .sub2 x _, r | .shl x _, r => r = x ∨ r = 15
  | .loadMem x, r => r ≤ x
  | .display _ _ _, r => r = 15
  | _, _ => False

/-- The part of the state a program can depend on: all but `dirty`, `display_changed` and the record of outputs. -/
def visible (s : State) : State := { s with dirty := false, displayChanged := false, trace := [] }

/-- All of the state but the sound timer. -/
def withoutSound (s : State) : State := { s with st := 0 }

/-- Two outcomes are the same stop, or two next states that `view` cannot tell apart. -/
def SameOutcome (view : State → State) : (o p : Host.Outcome State Fault Refusal) → Prop
  | .next t, .next u => view t = view u
  | .fault f, .fault g => f = g
  | .refused q, .refused r => q = r
  | _, _ => False

end Sys2Proof.Claims

open Sys2Proof.Claims

/-! ### Encoding (spec/30_encoding.md) -/

/-- Decoding the word of any instruction gives it back, with every operand at every value its field admits; so does
decoding its bytes, whatever follows them (section 5). -/
def Obligations.DecodeOfEncodeIsTheInstruction : Prop :=
  ∀ (i : Instr) (rest : List Byte),
    decode (encode i) = .ok i ∧ decodeBytes (encodeBytes i ++ rest) = .ok (i, rest)

/-- Section 5: re-encoding a decoded instruction gives back the word, and two different words never decode to the same
instruction. -/
def Obligations.EncodeOfDecodeIsTheWord : Prop :=
  (∀ (w : Word) (i : Instr), decode w = .ok i → encode i = w) ∧
  (∀ (w w' : Word) (i : Instr), decode w = .ok i → decode w' = .ok i → w = w')

/-- Section 4: a word that selects a row of the opcode table decodes to an instruction of that row, and a word that
selects none is rejected as a miss that carries it. -/
def Obligations.DecodeFollowsTheOpcodeTable : Prop :=
  ∀ w : Word,
    (∀ r ∈ opcodeTable, w &&& r.mask = r.pattern → ∃ i, decode w = .ok i ∧ i.row = r) ∧
    ((∀ r ∈ opcodeTable, w &&& r.mask ≠ r.pattern) → decode w = .error (.miss w))

/-- Section 5: the words that are no instruction are exactly those the list of decode misses names. -/
def Obligations.DecodeMissesAreThoseListed : Prop :=
  ∀ w : Word,
    ((∃ i, decode w = .ok i) ∨ decode w = .error (.miss w)) ∧
    (decode w = .error (.miss w) ↔
      (catOf w = 0x0 ∧ w ≠ 0x00E0 ∧ w ≠ 0x00EE) ∨
      (catOf w = 0x5 ∧ nOf w ≠ 0x0) ∨
      (catOf w = 0x8 ∧ nOf w ∈ [0x8, 0x9, 0xA, 0xB, 0xC, 0xD, 0xF]) ∨
      (catOf w = 0x9 ∧ nOf w ≠ 0x0) ∨
      (catOf w = 0xE ∧ nnOf w ∉ [0x9E, 0xA1]) ∨
      (catOf w = 0xF ∧ nnOf w ∉ [0x07, 0x0A, 0x15, 0x18, 0x1E, 0x29, 0x33, 0x55, 0x65]))

/-- Section 4: the table has 34 rows, and no word selects two of them. -/
def Obligations.OpcodeRowsAreDisjoint : Prop :=
  opcodeTable.length = 34 ∧
  opcodeTable.Pairwise fun r q => ∀ w : Word, ¬ (w &&& r.mask = r.pattern ∧ w &&& q.mask = q.pattern)

/-- A few words written out from the spec's encodings, a sanity statement: rows of section 4 and the examples of
section 6, and words rejected by sections 3 and 5. That 0x5AB1 is a miss is the spec's D8 (log 13), the other opcode
numbers its D7 (log 12). -/
def Obligations.SpecWordsDecode : Prop :=
  decode 0x00E0 = .ok .clear ∧ decode 0x00EE = .ok .ret ∧ decode 0x1204 = .ok (.jump 0x204) ∧
  decode 0xB2F0 = .ok (.jumpOffset 0x2F0) ∧ decode 0x8014 = .ok (.addReg 0 1) ∧
  decode 0xD015 = .ok (.display 0 1 5) ∧ decode 0xEFA1 = .ok (.skipIfNotKey 15) ∧
  decode 0xF065 = .ok (.loadMem 0) ∧ decode 0xC30F = .ok (.rand 3 0x0F) ∧
  decode 0x0000 = .error (.miss 0x0000) ∧ decode 0x5AB1 = .error (.miss 0x5AB1)

/-! ### The machine cycle (spec/40_machine_cycle.md) -/

/-- A step runs the decoded instruction: the pc is advanced before it, `display_changed` is false before it and makes
the buffer dirty after it, and one input has been taken. -/
def Obligations.StepRunsTheDecodedInstruction : Prop :=
  ∀ (s : State) (i : Instr), Fetches s → decode (wordAtPc s) = .ok i →
    ∃ t, exec i { s with pc := s.pc + 2, displayChanged := false } = .next t ∧
      step s = .next { t with
        dirty := t.dirty || t.displayChanged, feed := s.feed.tail, samples := s.samples + 1 }

/-- A decode miss is reported with its word and skipped; nothing else changes (section 2). The record of the report and of
the taken input and `display_changed` as a field are the model's own (log 1, 2, 22, 25), the word is read big-endian (D1,
log 24). -/
def Obligations.DecodeMissIsReportedAndSkipped : Prop :=
  ∀ (s : State) (e : Reject), Fetches s → decode (wordAtPc s) = .error e →
    step s = .next { s with
      pc := s.pc + 2, displayChanged := false, trace := s.trace ++ [.decodeMiss (wordAtPc s)]
      feed := s.feed.tail, samples := s.samples + 1 }

/-- A fetch that is not in range latches MemOutOfRange with the pc unchanged and reads nothing. The fault itself is the
spec's decision D3, the diagnostic address in the trace is the model's (log 25). -/
def Obligations.FetchOutOfRangeLatchesTheFault : Prop :=
  ∀ s : State, s.input.turn = .instruction → s.input.close = false → s.fault = none → s.loadError = false →
    4096 ≤ s.pc.toNat + 1 →
    step s = .next { s with
      fault := some .memOutOfRange, trace := s.trace ++ [.outOfRange s.pc.toNat]
      feed := s.feed.tail, samples := s.samples + 1 }

/-- When the instruction agent is not enabled, its turn stops the run: after a refused load, after a latched fault, or
when `close` is signalled. That the stop is an outcome of its own name is the model's choice (log 5, 6, 8); the latch and
its halt are the spec's decision D16, the refused load its decision D21. -/
def Obligations.InstructionTurnStopsWhenNotEnabled : Prop :=
  ∀ s : State, s.input.turn = .instruction →
    (s.loadError = true → step s = .fault .loadRefused) ∧
    (∀ c, s.loadError = false → s.fault = some c → step s = .fault (.halted c)) ∧
    (s.loadError = false → s.fault = none → s.input.close = true → step s = .fault .closed)

/-- Once a fault is latched, a step either is a reset or keeps the latch and all that a program can see but the timers
(the spec's decision D16). -/
def Obligations.OnlyResetClearsTheFaultLatch : Prop :=
  ∀ (s t : State) (c : FaultCode), s.fault = some c → step s = .next t →
    (∃ image, s.input.turn = .reset image) ∨
    (t.fault = some c ∧ t = { s with
      dt := t.dt, st := t.st, dirty := false, trace := t.trace, feed := s.feed.tail, samples := s.samples + 1 })

/-- One timer tick: both timers count down and stay at zero, a dirty buffer is presented as it stands, and nothing else
changes. -/
def Obligations.TimerTickCountsDownAndPresents : Prop :=
  ∀ s : State, s.input.turn = .timer →
    step s = .next { s with
      dt := if s.dt = 0 then 0 else s.dt - 1
      st := if s.st = 0 then 0 else s.st - 1
      dirty := false
      trace := if s.dirty then s.trace ++ [.present s.fb] else s.trace
      feed := s.feed.tail
      samples := s.samples + 1 }

/-- After n timer ticks in a row each timer has gone down by n, stopping at zero, whatever it held. -/
def Obligations.TimersReachZeroAfterEnoughTicks : Prop :=
  ∀ (ticks rest : List Input) (s : State), (∀ f ∈ ticks, f.turn = .timer) → s.feed = ticks ++ rest →
    ∃ t, Host.Core.run Sys2Proof.core ticks.length s = .next t ∧
      t.dt.toNat = s.dt.toNat - ticks.length ∧ t.st.toNat = s.st.toNat - ticks.length ∧
      t.feed = rest ∧
      t = { s with
        dt := t.dt, st := t.st, dirty := t.dirty, trace := t.trace, feed := t.feed, samples := t.samples }

/-! ### Reset (spec/70_reset_and_hazards.md) -/

/-- Every value the spec gives for reset (section 10 of spec/10_state.md). V0 to VF are the source's own; the others are
the spec's decisions D5, D6, D16 and D25. -/
def Obligations.ResetStateIsAsSpecified : Prop :=
  (∀ r, State.reset.getV r = 0) ∧ State.reset.index = 0 ∧ State.reset.pc = 0x200 ∧ State.reset.stack = [] ∧
  State.reset.dt = 0 ∧ State.reset.st = 0 ∧ (∀ x y, State.reset.fb.get x y = false) ∧
  State.reset.dirty = false ∧ State.reset.fault = none ∧ State.reset.loadError = false ∧
  fontData.length = 80 ∧
  (∀ k (h : k < fontData.length), State.reset.byteAt (0x50 + k) = fontData[k]) ∧
  (∀ a, a < 0x50 ∨ 0xA0 ≤ a → State.reset.byteAt a = 0)

/-- Asserting reset with an image that fits starts a new run from the reset state, whatever the state was: the image is
copied verbatim to 0x200 and every other byte is as at reset (the spec's decisions D5, D6, D16). -/
def Obligations.ResetLoadsTheImageAndStartsANewRun : Prop :=
  ∀ (s : State) (image : List Byte), s.input.turn = .reset image → image.length ≤ 3584 →
    ∃ t, step s = .next t ∧
      t = { State.reset with mem := t.mem, feed := s.feed.tail, samples := s.samples + 1 } ∧
      (∀ k (h : k < image.length), t.byteAt (0x200 + k) = image[k]) ∧
      (∀ a, a < 0x200 ∨ 0x200 + image.length ≤ a → t.byteAt a = State.reset.byteAt a)

/-- Asserting reset with an image that does not fit refuses the load: `load_error`, memory with nothing but zeros and the
font, and no instruction step afterwards (the spec's decision D21). -/
def Obligations.OversizeImageIsRefused : Prop :=
  ∀ (s : State) (image : List Byte), s.input.turn = .reset image → 3584 < image.length →
    step s = .next { State.reset with loadError := true, feed := s.feed.tail, samples := s.samples + 1 } ∧
    (∀ u : State, u.loadError = true → u.input.turn = .instruction → step u = .fault .loadRefused)

/-! ### The invariant -/

/-- The state after reset meets the invariant: memory canonical, the stack within its depth and holding fetch addresses,
the pc within its bound. -/
def Obligations.ResetMeetsTheInvariant : Prop := State.reset.Inv

/-- Every step from a state that meets the invariant leads to one that does, whichever agent moves. -/
def Obligations.EveryStepKeepsTheInvariant : Prop :=
  ∀ s t : State, s.Inv → step s = .next t → t.Inv

/-! ### Control flow (spec/41_control_flow.md) -/

/-- `Jump`, in the plain meaning the spec gives it (D29; log 15). -/
def Obligations.JumpLoadsThePc : Prop :=
  ∀ (a : Addr) (s : State), decode (0x1#4 ++ a) = .ok (.jump a) ∧
    ∃ t, exec (.jump a) s = .next t ∧ t.pc.toNat = a.toNat ∧ OnlyPc s t ∧ (a = 0xFFF → t.canFetch = false)

/-- `JumpOffset`: always V0, never reduced modulo 4096. -/
def Obligations.JumpOffsetAddsV0 : Prop :=
  ∀ (a : Addr) (s : State), decode (0xB#4 ++ a) = .ok (.jumpOffset a) ∧
    ∃ t, exec (.jumpOffset a) s = .next t ∧ t.pc.toNat = a.toNat + (s.getV 0).toNat ∧ OnlyPc s t ∧
      (0xFFF ≤ a.toNat + (s.getV 0).toNat → t.canFetch = false)

/-- `Call`: with room it pushes the advanced pc and jumps; on a full stack it latches StackOverflow and changes nothing
else. That the advanced pc is pushed is the spec's D30. -/
def Obligations.CallPushesAndJumpsOrOverflows : Prop :=
  ∀ (a : Addr) (s : State), decode (0x2#4 ++ a) = .ok (.call a) ∧
    (s.stack.length < 16 → ∃ t, exec (.call a) s = .next t ∧ t.pc.toNat = a.toNat ∧
      t = { s with stack := s.stack ++ [s.pc], pc := t.pc } ∧ ∀ p, t.byteAt p = s.byteAt p) ∧
    (s.stack.length = 16 → exec (.call a) s = .next { s with fault := some .stackOverflow })

/-- `Return`: it pops the newest entry into the pc (unchanged, the spec's own inference and its D30); on an empty stack it
latches StackUnderflow and changes nothing else. -/
def Obligations.ReturnPopsOrUnderflows : Prop :=
  ∀ s : State, decode 0x00EE = .ok .ret ∧
    (∀ l a, s.stack = l ++ [a] → ∃ t, exec .ret s = .next t ∧ t = { s with stack := l, pc := a } ∧
      ∀ p, t.byteAt p = s.byteAt p) ∧
    (s.stack = [] → exec .ret s = .next { s with fault := some .stackUnderflow })

/-- A return undoes the call it matches: the state is the one the call left from (D29, D30; log 15). -/
def Obligations.ReturnUndoesTheCall : Prop :=
  ∀ (a : Addr) (s t : State), s.stack.length < 16 → exec (.call a) s = .next t → exec .ret t = .next s

/-- The two stack operations and their laws (R30): push then pop returns the value, the seventeenth push onto an empty
stack overflows, popping from an empty stack underflows, a failed operation changes nothing in the stack. -/
def Obligations.StackOperationsObeyTheirLaws : Prop :=
  (∀ (s : State) (a : Word), s.stack.length < 16 →
    push a s = .done () { s with stack := s.stack ++ [a] } ∧
    pop { s with stack := s.stack ++ [a] } = .done a s) ∧
  (∀ (s : State) (a : Word), s.stack.length = 16 → push a s = .raised { s with fault := some .stackOverflow }) ∧
  (∀ s : State, s.stack = [] → pop s = .raised { s with fault := some .stackUnderflow }) ∧
  (∀ (s : State) (as : List Word) (a : Word), s.stack = [] → as.length = 16 →
    pushAll as s = .done () { s with stack := as } ∧
    pushAll (as ++ [a]) s = .raised { s with stack := as, fault := some .stackOverflow })

/-- The four compare skips, in the plain meaning the spec gives them (D29; log 15): the pc skips exactly when the condition
holds, and nothing else changes. -/
def Obligations.CompareSkipsSkipOnTheirCondition : Prop :=
  ∀ (x y : Reg) (nn : Byte) (s : State),
    (decode (0x3#4 ++ regField x ++ nn) = .ok (.skipEqVal x nn) ∧
      SkipsWhen (.skipEqVal x nn) s (s.getV x = nn)) ∧
    (decode (0x4#4 ++ regField x ++ nn) = .ok (.skipNeVal x nn) ∧
      SkipsWhen (.skipNeVal x nn) s (s.getV x ≠ nn)) ∧
    (decode (0x5#4 ++ regField x ++ regField y ++ 0x0#4) = .ok (.skipEqReg x y) ∧
      SkipsWhen (.skipEqReg x y) s (s.getV x = s.getV y)) ∧
    (decode (0x9#4 ++ regField x ++ regField y ++ 0x0#4) = .ok (.skipNeReg x y) ∧
      SkipsWhen (.skipNeReg x y) s (s.getV x ≠ s.getV y))

/-! ### ALU (spec/42_alu.md) -/

/-- `Set`, `Add` and `SetReg`: the value written, no flag, nothing else changed. The plain meaning of `Set` and `SetReg` is
the spec's D29 (log 15). -/
def Obligations.LoadCopyAndPlainAddWriteOneRegister : Prop :=
  ∀ (x y : Reg) (nn : Byte) (s : State),
    (decode (0x6#4 ++ regField x ++ nn) = .ok (.set x nn) ∧ WritesRegister (.set x nn) s x nn) ∧
    (decode (0x7#4 ++ regField x ++ nn) = .ok (.add x nn) ∧
      WritesRegister (.add x nn) s x (BitVec.ofNat 8 (((s.getV x).toNat + nn.toNat) % 256))) ∧
    (decode (0x8#4 ++ regField x ++ regField y ++ 0x0#4) = .ok (.setReg x y) ∧
      WritesRegister (.setReg x y) s x (s.getV y))

/-- `Or`, `And`, `Xor`, bit by bit, in their plain meaning (D29); that VF is not written (unless it is V[X]) is the spec's
decision D10 (log 17). -/
def Obligations.LogicCombinesBitsAndLeavesVF : Prop :=
  ∀ (x y : Reg) (s : State),
    decode (0x8#4 ++ regField x ++ regField y ++ 0x1#4) = .ok (.or x y) ∧
    decode (0x8#4 ++ regField x ++ regField y ++ 0x2#4) = .ok (.and x y) ∧
    decode (0x8#4 ++ regField x ++ regField y ++ 0x3#4) = .ok (.xor x y) ∧
    (∃ t, exec (.or x y) s = .next t ∧ OnlyRegisters (fun r => r = x) s t ∧
      ∀ k, (t.getV x).getLsbD k = ((s.getV x).getLsbD k || (s.getV y).getLsbD k)) ∧
    (∃ t, exec (.and x y) s = .next t ∧ OnlyRegisters (fun r => r = x) s t ∧
      ∀ k, (t.getV x).getLsbD k = ((s.getV x).getLsbD k && (s.getV y).getLsbD k)) ∧
    (∃ t, exec (.xor x y) s = .next t ∧ OnlyRegisters (fun r => r = x) s t ∧
      ∀ k, (t.getV x).getLsbD k = ((s.getV x).getLsbD k != (s.getV y).getLsbD k))

/-- The five flag-writing instructions on numbers (section 6): `a` is the old V[X], `b` the old V[Y]. With X = F the flag
is what remains: that order is the spec's decision D9. -/
def Obligations.FlagWritingAluResults : Prop :=
  ∀ (x y : Reg) (s : State),
    let a := (s.getV x).toNat
    let b := (s.getV y).toNat
    (decode (0x8#4 ++ regField x ++ regField y ++ 0x4#4) = .ok (.addReg x y) ∧
      WritesRegisterAndFlag (.addReg x y) s x ((a + b) % 256) (if 256 ≤ a + b then 1 else 0)) ∧
    (decode (0x8#4 ++ regField x ++ regField y ++ 0x5#4) = .ok (.sub1 x y) ∧
      WritesRegisterAndFlag (.sub1 x y) s x (if b ≤ a then a - b else a + 256 - b) (if b ≤ a then 1 else 0)) ∧
    (decode (0x8#4 ++ regField x ++ regField y ++ 0x6#4) = .ok (.shr x y) ∧
      WritesRegisterAndFlag (.shr x y) s x (b / 2) (b % 2)) ∧
    (decode (0x8#4 ++ regField x ++ regField y ++ 0x7#4) = .ok (.sub2 x y) ∧
      WritesRegisterAndFlag (.sub2 x y) s x (if a ≤ b then b - a else b + 256 - a) (if a ≤ b then 1 else 0)) ∧
    (decode (0x8#4 ++ regField x ++ regField y ++ 0xE#4) = .ok (.shl x y) ∧
      WritesRegisterAndFlag (.shl x y) s x (2 * b % 256) (b / 128))

/-- `Rand`: the drawn byte under the mask, for every draw; every value under the mask is a possible result. -/
def Obligations.RandMasksTheDraw : Prop :=
  ∀ (x : Reg) (nn : Byte) (s : State),
    decode (0xC#4 ++ regField x ++ nn) = .ok (.rand x nn) ∧
    WritesRegister (.rand x nn) s x (s.input.rand &&& nn) ∧
    (∀ t, exec (.rand x nn) s = .next t → t.getV x &&& ~~~nn = 0) ∧
    (∀ b : Byte, b &&& ~~~nn = 0 →
      ∃ f t, exec (.rand x nn) { s with feed := f :: s.feed.tail } = .next t ∧ t.getV x = b)

/-! ### Index register and memory (spec/20_memory.md, spec/43_index_memory.md) -/

/-- The two single-byte primitives on any address (section 3); the fault is the spec's D3, the address in the trace the
model's (log 25). -/
def Obligations.MemoryPrimitivesReadAndWriteOneByte : Prop :=
  ∀ (s : State) (a : Nat) (b : Byte),
    (a < 4096 → memRead a s = .done (s.byteAt a) s ∧
      ∃ t, memWrite a b s = .done () t ∧ t.byteAt a = b ∧ (∀ p, p ≠ a → t.byteAt p = s.byteAt p) ∧
        t = { s with mem := t.mem }) ∧
    (4096 ≤ a →
      memRead a s = .raised { s with fault := some .memOutOfRange, trace := s.trace ++ [.outOfRange a] } ∧
      memWrite a b s = .raised { s with fault := some .memOutOfRange, trace := s.trace ++ [.outOfRange a] })

/-- `SetIndex`, in the plain meaning the spec gives it (D29; log 15). -/
def Obligations.SetIndexLoadsI : Prop :=
  ∀ (a : Addr) (s : State), decode (0xA#4 ++ a) = .ok (.setIndex a) ∧
    ∃ t, exec (.setIndex a) s = .next t ∧ t.index.toNat = a.toNat ∧ OnlyIndex s t

/-- `AddIndex` wraps modulo 65536 and writes no flag (the spec's D11); `GetFontChar` applies its formula to the whole
byte (D12), which for a digit is the address of its glyph. -/
def Obligations.IndexArithmetic : Prop :=
  ∀ (x : Reg) (s : State),
    decode (0xF#4 ++ regField x ++ 0x1E#8) = .ok (.addIndex x) ∧
    decode (0xF#4 ++ regField x ++ 0x29#8) = .ok (.getFontChar x) ∧
    (∃ t, exec (.addIndex x) s = .next t ∧ t.index.toNat = (s.index.toNat + (s.getV x).toNat) % 65536 ∧
      OnlyIndex s t) ∧
    (∃ t, exec (.getFontChar x) s = .next t ∧ t.index.toNat = 0x50 + 5 * (s.getV x).toNat ∧ OnlyIndex s t)

/-- `BinToDec`: the digits whose address exists are stored, no other byte changes, and nothing else changes unless an
address does not exist: then the fault is latched. `I` unchanged is the spec's D13, the fault its D3, the address in the
trace the model's (log 25). -/
def Obligations.BinToDecStoresTheDigits : Prop :=
  ∀ (x : Reg) (s : State), decode (0xF#4 ++ regField x ++ 0x33#8) = .ok (.binToDec x) ∧
    ∃ t, exec (.binToDec x) s = .next t ∧
      (s.base < 4096 → t.byteAt s.base = BitVec.ofNat 8 ((s.getV x).toNat / 100)) ∧
      (s.base + 1 < 4096 → t.byteAt (s.base + 1) = BitVec.ofNat 8 ((s.getV x).toNat / 10 % 10)) ∧
      (s.base + 2 < 4096 → t.byteAt (s.base + 2) = BitVec.ofNat 8 ((s.getV x).toNat % 10)) ∧
      (∀ p, p < s.base ∨ s.base + 3 ≤ p ∨ 4096 ≤ p → t.byteAt p = s.byteAt p) ∧
      (s.base + 3 ≤ 4096 → t = { s with mem := t.mem }) ∧
      (4096 < s.base + 3 → t = { s with
        mem := t.mem, fault := some .memOutOfRange, trace := s.trace ++ [.outOfRange (max s.base 4096)] })

/-- `StoreMem`: V0 to VX at `I` to `I + X`, as far as the addresses exist; no other byte changes, and nothing else changes
unless an address does not exist: then the fault is latched (D13, D3, log 25 as for `BinToDec`). -/
def Obligations.StoreMemStoresV0ToVX : Prop :=
  ∀ (x : Reg) (s : State), decode (0xF#4 ++ regField x ++ 0x55#8) = .ok (.storeMem x) ∧
    ∃ t, exec (.storeMem x) s = .next t ∧
      (∀ k : Reg, k ≤ x → s.base + k < 4096 → t.byteAt (s.base + k) = s.getV k) ∧
      (∀ p, p < s.base ∨ s.base + x < p ∨ 4096 ≤ p → t.byteAt p = s.byteAt p) ∧
      (s.base + x < 4096 → t = { s with mem := t.mem }) ∧
      (4096 ≤ s.base + x → t = { s with
        mem := t.mem, fault := some .memOutOfRange, trace := s.trace ++ [.outOfRange (max s.base 4096)] })

/-- `LoadMem`: V0 to VX from `I` to `I + X`, as far as the addresses exist; no other register, no byte of memory and
nothing else changes unless an address does not exist: then the fault is latched (D13, D3, log 25). -/
def Obligations.LoadMemLoadsV0ToVX : Prop :=
  ∀ (x : Reg) (s : State), decode (0xF#4 ++ regField x ++ 0x65#8) = .ok (.loadMem x) ∧
    ∃ t, exec (.loadMem x) s = .next t ∧
      (∀ k : Reg, k ≤ x → s.base + k < 4096 → t.getV k = s.byteAt (s.base + k)) ∧
      (∀ k : Reg, x < k ∨ 4096 ≤ s.base + k → t.getV k = s.getV k) ∧
      (∀ p, t.byteAt p = s.byteAt p) ∧
      (s.base + x < 4096 → t = { s with v := t.v }) ∧
      (4096 ≤ s.base + x → t = { s with
        v := t.v, fault := some .memOutOfRange, trace := s.trace ++ [.outOfRange (max s.base 4096)] })

/-- `LoadMem` after `StoreMem` with the same X and `I` restores the same register values, whatever happened to the
registers in between (section 4). -/
def Obligations.LoadMemRestoresWhatStoreMemSaved : Prop :=
  ∀ (x : Reg) (s t u w : State), s.base + x < 4096 → exec (.storeMem x) s = .next t →
    u.mem = t.mem → u.index = s.index → exec (.loadMem x) u = .next w →
    ∀ k : Reg, k ≤ x → w.getV k = s.getV k

/-! ### Display (spec/44_display.md) -/

/-- `WritePixel` (R220): what each mode does to its cell and returns, no other cell changes, and toggling twice restores
the cell with the second call reporting the opposite of the first. -/
def Obligations.WritePixelContract : Prop :=
  ∀ (x : Fin 64) (y : Fin 32) (f : Framebuffer),
    (writePixel x y .clear f).2 = false ∧ (writePixel x y .clear f).1.get x y = false ∧
    (writePixel x y .toggle f).2 = f.get x y ∧ (writePixel x y .toggle f).1.get x y = !f.get x y ∧
    (∀ (mode : PixelMode) (x' : Fin 64) (y' : Fin 32), (x', y') ≠ (x, y) →
      (writePixel x y mode f).1.get x' y' = f.get x' y') ∧
    (writePixel x y .toggle (writePixel x y .toggle f).1).1 = f ∧
    (writePixel x y .toggle (writePixel x y .toggle f).1).2 = !f.get x y

/-- `clear_display` is `WritePixel(x, y, Clear)` applied to every one of the 2048 cells, in whatever order, and leaves
every cell unlit (R221). -/
def Obligations.ClearDisplayClearsEveryCell : Prop :=
  ∀ (f : Framebuffer) (cells : List (Fin 64 × Fin 32)), (∀ x y, (x, y) ∈ cells) →
    clearDisplay f = clearCells cells f ∧ ∀ x y, (clearDisplay f).get x y = false

/-- `Clear`: every cell unlit and a change reported, whatever the buffer held (the report is the spec's D15); nothing
else changes. -/
def Obligations.ClearBlanksTheFramebuffer : Prop :=
  ∀ s : State, decode 0x00E0 = .ok .clear ∧
    ∃ t, exec .clear s = .next t ∧ (∀ x y, t.fb.get x y = false) ∧ t.displayChanged = true ∧
      t = { s with fb := t.fb, displayChanged := true } ∧ ∀ p, t.byteAt p = s.byteAt p

/-- `Display` whose sprite bytes all exist: a cell is flipped exactly when an unclipped set bit lands on it, a change is
reported, and nothing else changes but VF (loop order, operand timing and report are the spec's D14, D15, a height of 0
its D28). -/
def Obligations.DisplayFlipsExactlyTheSprite : Prop :=
  ∀ (x y : Reg) (n : Nibble) (s : State),
    decode (0xD#4 ++ regField x ++ regField y ++ n) = .ok (.display x y n) ∧
    (n = 0 ∨ s.base + n.toNat ≤ 4096 →
      ∃ t, exec (.display x y n) s = .next t ∧
        (∀ cx cy, t.fb.get cx cy = (s.fb.get cx cy != covered s x y n.toNat cx cy)) ∧
        t = { s with v := t.v, fb := t.fb, displayChanged := true } ∧
        (∀ r, r ≠ 15 → t.getV r = s.getV r) ∧ ∀ p, t.byteAt p = s.byteAt p)

/-- VF after `Display`: whether the LAST toggled pixel, in row-major order, was lit before the draw; unchanged when no
pixel is toggled. The order and the unchanged VF are the spec's D14. -/
def Obligations.DisplayLeavesTheLastCollisionInVF : Prop :=
  ∀ (x y : Reg) (n : Nibble) (s t : State), n = 0 ∨ s.base + n.toNat ≤ 4096 →
    exec (.display x y n) s = .next t →
    (toggledCells s x y n.toNat = [] → t.getV 15 = s.getV 15) ∧
    (∀ cells p, toggledCells s x y n.toNat = cells ++ [p] →
      t.getV 15 = if s.fb.get p.1 p.2 then 1 else 0)

/-- `Display` whose sprite runs past the end of memory: the rows whose bytes exist are drawn, VF keeps what the last
toggled pixel left (its old value when none was toggled), no change is reported, and the fault is latched at the first byte
that does not exist (D3, D14, D15; the address in the trace is the model's, log 25). -/
def Obligations.DisplayPastTheEndOfMemoryFaults : Prop :=
  ∀ (x y : Reg) (n : Nibble) (s : State), n ≠ 0 → 4096 < s.base + n.toNat →
    ∃ t, exec (.display x y n) s = .next t ∧
      (∀ cx cy, t.fb.get cx cy = (s.fb.get cx cy != covered s x y (4096 - s.base) cx cy)) ∧
      t = { s with
        v := t.v, fb := t.fb, fault := some .memOutOfRange
        trace := s.trace ++ [.outOfRange (max s.base 4096)] } ∧
      (∀ r, r ≠ 15 → t.getV r = s.getV r) ∧
      (toggledCells s x y (4096 - s.base) = [] → t.getV 15 = s.getV 15) ∧
      (∀ cells p, toggledCells s x y (4096 - s.base) = cells ++ [p] →
        t.getV 15 = if s.fb.get p.1 p.2 then 1 else 0)

/-- Drawing the same sprite twice at the same place restores the framebuffer; if it toggles a pixel and its cells were all
unlit, the first draw leaves VF = 0 and the second VF = 1 (section 3, worked consequences). -/
def Obligations.DrawingTwiceRestoresTheFramebuffer : Prop :=
  ∀ (x y : Reg) (n : Nibble) (s t u : State), n = 0 ∨ s.base + n.toNat ≤ 4096 →
    exec (.display x y n) s = .next t → t.getV x = s.getV x → t.getV y = s.getV y →
    exec (.display x y n) t = .next u →
    u.fb = s.fb ∧
    ((∃ cx cy, covered s x y n.toNat cx cy = true) →
      (∀ cx cy, covered s x y n.toNat cx cy = true → s.fb.get cx cy = false) →
      t.getV 15 = 0 ∧ u.getV 15 = 1)

/-! ### Keys and timers (spec/45_keys_timers.md, spec/40_machine_cycle.md) -/

/-- The key skips: a register value of 16 or more is not pressed and is not masked. -/
def Obligations.KeySkipsPollTheNamedKey : Prop :=
  ∀ (x : Reg) (s : State),
    decode (0xE#4 ++ regField x ++ 0x9E#8) = .ok (.skipIfKey x) ∧
    decode (0xE#4 ++ regField x ++ 0xA1#8) = .ok (.skipIfNotKey x) ∧
    SkipsWhen (.skipIfKey x) s
      ((s.getV x).toNat ≤ 15 ∧ s.input.keyDown.getLsbD (s.getV x).toNat = true) ∧
    SkipsWhen (.skipIfNotKey x) s
      (¬ ((s.getV x).toNat ≤ 15 ∧ s.input.keyDown.getLsbD (s.getV x).toNat = true))

/-- The any-key poll: `none` exactly when no key is down, else a key that is down, and every pressed key can be the one it
names (the spec's decision D18; log 3). -/
def Obligations.AnyKeyNamesAPressedKey : Prop :=
  ∀ s : State,
    (s.anyKey = none ↔ s.input.keyDown = 0) ∧
    (∀ k, s.anyKey = some k → s.input.keyDown.getLsbD k = true) ∧
    (∀ k : Reg, s.input.keyDown.getLsbD k = true →
      ({ s with feed := { s.input with keyPick := k } :: s.feed.tail } : State).anyKey = some k)

/-- `WaitForKey`: with a key, its number is stored and the pc is as otherwise; with none, the pc goes back to the
same word and nothing else changes. -/
def Obligations.WaitForKeyStoresOrRewinds : Prop :=
  ∀ (x : Reg) (s : State),
    decode (0xF#4 ++ regField x ++ 0x0A#8) = .ok (.waitForKey x) ∧
    (∀ k, s.anyKey = some k → WritesRegister (.waitForKey x) s x (BitVec.ofNat 8 k)) ∧
    (s.anyKey = none → ∃ t, exec (.waitForKey x) s = .next t ∧ t.pc + 2 = s.pc ∧ OnlyPc s t)

/-- A whole step of `WaitForKey` with no key down leaves the pc where it was and changes no state at all: only
`display_changed` is false and an input has been taken. -/
def Obligations.WaitForKeyStepStaysInPlace : Prop :=
  ∀ (s : State) (x : Reg), Fetches s → decode (wordAtPc s) = .ok (.waitForKey x) → s.input.keyDown = 0 →
    step s = .next { s with displayChanged := false, feed := s.feed.tail, samples := s.samples + 1 }

/-- The timer moves, in the plain meaning the spec gives them (D29; log 15). -/
def Obligations.TimerMovesCopyOneByte : Prop :=
  ∀ (x : Reg) (s : State),
    decode (0xF#4 ++ regField x ++ 0x07#8) = .ok (.getDelay x) ∧
    decode (0xF#4 ++ regField x ++ 0x15#8) = .ok (.setDelay x) ∧
    decode (0xF#4 ++ regField x ++ 0x18#8) = .ok (.setSound x) ∧
    WritesRegister (.getDelay x) s x s.dt ∧
    (∃ t, exec (.setDelay x) s = .next t ∧ t = { s with dt := s.getV x } ∧ ∀ p, t.byteAt p = s.byteAt p) ∧
    (∃ t, exec (.setSound x) s = .next t ∧ t = { s with st := s.getV x } ∧ ∀ p, t.byteAt p = s.byteAt p)

/-! ### Rules of the whole machine -/

/-- "no instruction throws" (spec/40_machine_cycle.md section 2): every instruction answers a next state from every state,
and takes no input of its own and never touches `load_error`. -/
def Obligations.EveryInstructionAnswersANextState : Prop :=
  ∀ (i : Instr) (s : State), ∃ t, exec i s = .next t ∧
    t.feed = s.feed ∧ t.samples = s.samples ∧ t.loadError = s.loadError ∧ t.dirty = s.dirty

/-- Only `Call` and `Return` touch the stack (spec/10_state.md section 4), only three instructions write `I` (section 2),
only the set instructions write the timers (section 5). -/
def Obligations.StackIndexAndTimersHaveTheirWriters : Prop :=
  ∀ (i : Instr) (s t : State), exec i s = .next t →
    (t.stack ≠ s.stack → i = .ret ∨ ∃ a, i = .call a) ∧
    (t.index ≠ s.index → (∃ a, i = .setIndex a) ∨ (∃ x, i = .addIndex x) ∨ ∃ x, i = .getFontChar x) ∧
    (t.dt ≠ s.dt → ∃ x, i = .setDelay x) ∧
    (t.st ≠ s.st → ∃ x, i = .setSound x)

/-- Only `BinToDec` and `StoreMem` change a byte of memory (spec/20_memory.md section 7); only `Clear` and `Display` change
the framebuffer (spec/10_state.md section 6) or report a change (spec/40_machine_cycle.md section 2). -/
def Obligations.MemoryAndFramebufferHaveTheirWriters : Prop :=
  ∀ (i : Instr) (s t : State), exec i s = .next t →
    ((∃ p, t.byteAt p ≠ s.byteAt p) → (∃ x, i = .binToDec x) ∨ ∃ x, i = .storeMem x) ∧
    (t.fb ≠ s.fb → i = .clear ∨ ∃ x y n, i = .display x y n) ∧
    (t.displayChanged ≠ s.displayChanged → i = .clear ∨ ∃ x y n, i = .display x y n)

/-- An instruction changes no general register but its destination, VF when it writes a flag, V0 to VX for `LoadMem`: the
instruction rules of spec/41_control_flow.md to spec/45_keys_timers.md, and spec/10_state.md section 11, the complete list
of the writers of VF. -/
def Obligations.GeneralRegistersHaveTheirWriters : Prop :=
  ∀ (i : Instr) (s t : State) (r : Reg), exec i s = .next t → t.getV r ≠ s.getV r → mayWrite i r

/-- Which instructions raise which fault (spec/60_exceptions.md section 3); none clears the latch. -/
def Obligations.FaultsAreRaisedByTheseInstructionsOnly : Prop :=
  ∀ (i : Instr) (s t : State), exec i s = .next t → t.fault ≠ s.fault →
    (t.fault = some .stackOverflow ∧ ∃ a, i = .call a) ∨
    (t.fault = some .stackUnderflow ∧ i = .ret) ∨
    (t.fault = some .memOutOfRange ∧
      ((∃ x, i = .binToDec x) ∨ (∃ x, i = .storeMem x) ∨ (∃ x, i = .loadMem x) ∨ ∃ x y n, i = .display x y n))

/-- The sound timer has no effect on anything in the core (spec/10_state.md section 5): two states that differ only in it
step to outcomes that differ only in it. -/
def Obligations.SoundTimerAffectsNothing : Prop :=
  ∀ s u : State, withoutSound s = withoutSound u → SameOutcome withoutSound (step s) (step u)

/-- `dirty`, `display_changed` and the record of outputs are invisible to the program (spec/10_state.md section 8,
spec/40_machine_cycle.md section 2): two states that differ only in them step to outcomes that differ only in them. -/
def Obligations.HiddenStateIsInvisible : Prop :=
  ∀ s u : State, visible s = visible u → SameOutcome visible (step s) (step u)

/-- Placing a word makes it the one the next step fetches, with the instruction agent enabled and next to move. It clears
the fault latch and `load_error`, replaces the next input, and moves a pc that cannot be fetched from; it changes no other
register, no timer, stack entry or pixel, and no byte but those two (the model's own operation, log 29). -/
def Obligations.PlacedWordIsFetchedNext : Prop :=
  ∀ (s : State) (w : Word), let t := s.withFetchWord 16 w.toNat
    Fetches t ∧ wordAtPc t = w ∧
    (s.pc.toNat + 1 < 4096 → t.pc = s.pc) ∧
    (∀ p, p ≠ t.pc.toNat → p ≠ t.pc.toNat + 1 → t.byteAt p = s.byteAt p) ∧
    t = { s with pc := t.pc, mem := t.mem, fault := none, loadError := false, feed := t.feed }

/-- The outputs show the state: the four codes of the fault port (the spec's D26, log 28), which name the latch; a lit cell
shows the foreground colour and an unlit one the background colour, white on black by default; and with two different
colours (its D24, log 26) the presented picture determines every pixel. -/
def Obligations.OutputPortsShowTheState : Prop :=
  (∀ s : State,
    (s.fault = none → faultPort s = 0) ∧ (s.fault = some .stackOverflow → faultPort s = 1) ∧
    (s.fault = some .stackUnderflow → faultPort s = 2) ∧ (s.fault = some .memOutOfRange → faultPort s = 3)) ∧
  (∀ (p : Palette) (f : Framebuffer) x y,
    (f.get x y = true → f.colour p x y = p.foreground) ∧ (f.get x y = false → f.colour p x y = p.background)) ∧
  Palette.default.foreground = 0xFFFFFF ∧ Palette.default.background = 0x000000 ∧
  (∀ s u : State, faultPort s = faultPort u → s.fault = u.fault) ∧
  (∀ s : State, faultPort s = 0 ↔ s.fault = none) ∧
  (∀ (p : Palette) (f g : Framebuffer), p.wellFormed = true →
    (∀ x y, f.colour p x y = g.colour p x y) → f = g)

/-! ### The end of a run (spec/40_machine_cycle.md section 5): the model's definition, which the spec asks for and of which
it suggests this one (D27; log 32) -/

/-- The end is a `Jump` to its own address under the pc, in an unfaulted state whose program was accepted; a run ends at
most once, at the first such state. -/
def Obligations.EndOfRunIsTheFirstJumpToItself : Prop :=
  (∀ s : State, s.atEnd = true ↔
    s.fault = none ∧ s.loadError = false ∧ s.pc.toNat + 1 < 4096 ∧
      ∃ a : Addr, wordAtPc s = 0x1#4 ++ a ∧ s.pc.toNat = a.toNat) ∧
  (∀ (s t u : State) (n m : Nat), EndsAfter n s t → EndsAfter m s u → n = m ∧ t = u) ∧
  (∀ s : State, s.atEnd = true → EndsAfter 0 s s)

/-- A state at the end of a run stays there: an instruction turn either changes no state at all (only `display_changed` is
false and an input has been taken) or is stopped by `close`, a timer turn moves the timers and presents, and only a reset
leaves it. -/
def Obligations.EndOfRunIsKeptUntilReset : Prop :=
  ∀ s : State, s.atEnd = true →
    (s.input.turn = .instruction → s.input.close = false →
      step s = .next { s with displayChanged := false, feed := s.feed.tail, samples := s.samples + 1 }) ∧
    (s.input.turn = .instruction → s.input.close = true → step s = .fault .closed) ∧
    (∀ t, step s = .next t → (∃ image, s.input.turn = .reset image) ∨
      (t.atEnd = true ∧ t = { s with
        dt := t.dt, st := t.st, dirty := t.dirty, displayChanged := t.displayChanged, trace := t.trace
        feed := s.feed.tail, samples := s.samples + 1 }))
end

