-- ==== Sys2Proof/Laws/Decode.lean ====
section
/-! SUPPORT. The fields of a word built in each format, and the word rebuilt from its fields
(spec/30_encoding.md R91, R92). -/

namespace Sys2Proof

/-! ### Fields of a built word -/

@[simp] theorem catOf_formatNNN (c : Nibble) (a : Addr) : catOf (formatNNN c a) = c := by
  simp only [catOf, formatNNN]
  exact BitVec.extractLsb'_append_eq_left

@[simp] theorem nnnOf_formatNNN (c : Nibble) (a : Addr) : nnnOf (formatNNN c a) = a := by
  simp only [nnnOf, formatNNN]
  exact BitVec.extractLsb'_append_eq_right

@[simp] theorem catOf_formatXNN (c : Nibble) (x : Reg) (nn : Byte) : catOf (formatXNN c x nn) = c := by
  simp only [catOf, formatXNN]
  apply BitVec.eq_of_getLsbD_eq
  intro i hi
  simp only [BitVec.getLsbD_extractLsb', BitVec.getLsbD_append, hi, decide_true, Bool.true_and]
  have h1 : ¬ 12 + i < 8 := by omega
  have h2 : ¬ 12 + i - 8 < 4 := by omega
  have h3 : 12 + i - 8 - 4 = i := by omega
  simp [h1, h2, h3]

@[simp] theorem xOf_formatXNN (c : Nibble) (x : Reg) (nn : Byte) : xOf (formatXNN c x nn) = x := by
  have h : (formatXNN c x nn).extractLsb' 8 4 = regField x := by
    simp only [formatXNN]
    apply BitVec.eq_of_getLsbD_eq
    intro i hi
    simp only [BitVec.getLsbD_extractLsb', BitVec.getLsbD_append, hi, decide_true, Bool.true_and]
    have h1 : ¬ 8 + i < 8 := by omega
    have h3 : 8 + i - 8 = i := by omega
    simp [h1, h3, hi]
  simp only [xOf, h, regField]

@[simp] theorem nnOf_formatXNN (c : Nibble) (x : Reg) (nn : Byte) : nnOf (formatXNN c x nn) = nn := by
  simp only [nnOf, formatXNN]
  exact BitVec.extractLsb'_append_eq_right

@[simp] theorem catOf_formatXYN (c : Nibble) (x y : Reg) (n : Nibble) : catOf (formatXYN c x y n) = c := by
  simp only [catOf, formatXYN]
  apply BitVec.eq_of_getLsbD_eq
  intro i hi
  simp only [BitVec.getLsbD_extractLsb', BitVec.getLsbD_append, hi, decide_true, Bool.true_and]
  have h1 : ¬ 12 + i < 4 := by omega
  have h2 : ¬ 12 + i - 4 < 4 := by omega
  have h4 : ¬ 12 + i - 4 - 4 < 4 := by omega
  have h3 : 12 + i - 4 - 4 - 4 = i := by omega
  simp [h1, h2, h3, h4]

@[simp] theorem xOf_formatXYN (c : Nibble) (x y : Reg) (n : Nibble) : xOf (formatXYN c x y n) = x := by
  have h : (formatXYN c x y n).extractLsb' 8 4 = regField x := by
    simp only [formatXYN]
    apply BitVec.eq_of_getLsbD_eq
    intro i hi
    simp only [BitVec.getLsbD_extractLsb', BitVec.getLsbD_append, hi, decide_true, Bool.true_and]
    have h1 : ¬ 8 + i < 4 := by omega
    have h2 : ¬ 8 + i - 4 < 4 := by omega
    have h3 : 8 + i - 4 - 4 = i := by omega
    simp [h1, h2, h3, hi]
  simp only [xOf, h, regField]

@[simp] theorem yOf_formatXYN (c : Nibble) (x y : Reg) (n : Nibble) : yOf (formatXYN c x y n) = y := by
  have h : (formatXYN c x y n).extractLsb' 4 4 = regField y := by
    simp only [formatXYN]
    apply BitVec.eq_of_getLsbD_eq
    intro i hi
    simp only [BitVec.getLsbD_extractLsb', BitVec.getLsbD_append, hi, decide_true, Bool.true_and]
    have h1 : ¬ 4 + i < 4 := by omega
    have h3 : 4 + i - 4 = i := by omega
    simp [h1, h3, hi]
  simp only [yOf, h, regField]

@[simp] theorem nOf_formatXYN (c : Nibble) (x y : Reg) (n : Nibble) : nOf (formatXYN c x y n) = n := by
  simp only [nOf, formatXYN]
  exact BitVec.extractLsb'_append_eq_right

/-! ### The word rebuilt from its fields -/

theorem formatNNN_fields (w : Word) : formatNNN (catOf w) (nnnOf w) = w := by
  simp only [formatNNN, catOf, nnnOf]
  apply BitVec.eq_of_getLsbD_eq
  intro i hi
  simp only [BitVec.getLsbD_append, BitVec.getLsbD_extractLsb']
  by_cases h : i < 12
  · simp [h]
  · have h1 : i - 12 < 4 := by omega
    have h2 : 12 + (i - 12) = i := by omega
    simp [h, h1, h2]

theorem regField_xOf (w : Word) : regField (xOf w) = w.extractLsb' 8 4 := rfl

theorem regField_yOf (w : Word) : regField (yOf w) = w.extractLsb' 4 4 := rfl

theorem formatXNN_fields (w : Word) : formatXNN (catOf w) (xOf w) (nnOf w) = w := by
  simp only [formatXNN, catOf, regField_xOf, nnOf]
  apply BitVec.eq_of_getLsbD_eq
  intro i hi
  simp only [BitVec.getLsbD_append, BitVec.getLsbD_extractLsb']
  by_cases h : i < 8
  · simp [h]
  · by_cases h' : i - 8 < 4
    · have h2 : 8 + (i - 8) = i := by omega
      simp [h, h', h2]
    · have h1 : i - 8 - 4 < 4 := by omega
      have h2 : 12 + (i - 8 - 4) = i := by omega
      simp [h, h', h1, h2]

theorem formatXYN_fields (w : Word) : formatXYN (catOf w) (xOf w) (yOf w) (nOf w) = w := by
  simp only [formatXYN, catOf, regField_xOf, regField_yOf, nOf]
  apply BitVec.eq_of_getLsbD_eq
  intro i hi
  simp only [BitVec.getLsbD_append, BitVec.getLsbD_extractLsb']
  by_cases h : i < 4
  · simp [h]
  · by_cases h' : i - 4 < 4
    · have h2 : 4 + (i - 4) = i := by omega
      simp [h, h', h2]
    · by_cases h'' : i - 4 - 4 < 4
      · have h2 : 8 + (i - 4 - 4) = i := by omega
        simp [h, h', h'', h2]
      · have h1 : i - 4 - 4 - 4 < 4 := by omega
        have h2 : 12 + (i - 4 - 4 - 4) = i := by omega
        simp [h, h', h'', h1, h2]

/-! ### The three masks of the opcode table (R92) -/

theorem and_maskNNN (w : Word) : w &&& 0xF000 = formatXYN (catOf w) 0 0 0 := by
  apply BitVec.eq_of_getLsbD_eq
  intro i hi
  simp only [BitVec.getLsbD_and, formatXYN, catOf, BitVec.getLsbD_append, BitVec.getLsbD_extractLsb']
  interval_cases i <;> simp [regField]

theorem and_maskXYn (w : Word) : w &&& 0xF00F = formatXYN (catOf w) 0 0 (nOf w) := by
  apply BitVec.eq_of_getLsbD_eq
  intro i hi
  simp only [BitVec.getLsbD_and, formatXYN, catOf, nOf, BitVec.getLsbD_append, BitVec.getLsbD_extractLsb']
  interval_cases i <;> simp [regField]

theorem and_maskXnn (w : Word) : w &&& 0xF0FF = formatXNN (catOf w) 0 (nnOf w) := by
  apply BitVec.eq_of_getLsbD_eq
  intro i hi
  simp only [BitVec.getLsbD_and, formatXNN, catOf, nnOf, BitVec.getLsbD_append, BitVec.getLsbD_extractLsb']
  interval_cases i <;> simp [regField]

/-! ### Bytes -/

@[simp] theorem joinBytes_bytes (w : Word) : joinBytes (firstByte w) (secondByte w) = w := by
  simp only [joinBytes, firstByte, secondByte]
  apply BitVec.eq_of_getLsbD_eq
  intro i hi
  simp only [BitVec.getLsbD_append, BitVec.getLsbD_extractLsb']
  by_cases h : i < 8
  · simp [h]
  · have h1 : i - 8 < 8 := by omega
    have h2 : 8 + (i - 8) = i := by omega
    simp [h, h1, h2]

/-! ### The last arms: what is left when every named value is excluded -/

/-- A category that is none of 0x0 to 0xE is 0xF. -/
theorem nibble_last : ∀ n : Nibble,
    n ∉ ([0x0, 0x1, 0x2, 0x3, 0x4, 0x5, 0x6, 0x7, 0x8, 0x9, 0xA, 0xB, 0xC, 0xD, 0xE] : List Nibble) → n = 0xF := by
  decide

/-- A low nibble that selects no operation of category 0x8 is one of the seven listed. -/
theorem nibble_no_alu_operation : ∀ n : Nibble,
    n ∉ ([0x0, 0x1, 0x2, 0x3, 0x4, 0x5, 0x6, 0x7, 0xE] : List Nibble) ↔
      n ∈ ([0x8, 0x9, 0xA, 0xB, 0xC, 0xD, 0xF] : List Nibble) := by
  decide

/-! ### Misses -/

/-- The one way a word is rejected: it is reported itself. -/
theorem decode_error {w : Word} {e : Reject} (h : decode w = .error e) : e = .miss w := by
  revert h
  simp only [decode, decodeLiteral, decodeRegSkip, decodeAlu, decodeKeySkip, decodeMisc]
  repeat' split
  all_goals simp_all

end Sys2Proof
end

