-- ==== Sys2Proof/Laws/State.lean ====
section
/-! SUPPORT. What each update of the state does to each field: one lemma per field per update, true by `rfl`, so that no
later proof unfolds a record update. After them, reading a register after a register write. -/

namespace Sys2Proof.Machine.State

variable (s : State)

/-! ### `setV` -/

@[simp] theorem setV_v (r : Reg) (b : Byte) : (s.setV r b).v = s.v.set r b := rfl
@[simp] theorem setV_index (r : Reg) (b : Byte) : (s.setV r b).index = s.index := rfl
@[simp] theorem setV_pc (r : Reg) (b : Byte) : (s.setV r b).pc = s.pc := rfl
@[simp] theorem setV_stack (r : Reg) (b : Byte) : (s.setV r b).stack = s.stack := rfl
@[simp] theorem setV_dt (r : Reg) (b : Byte) : (s.setV r b).dt = s.dt := rfl
@[simp] theorem setV_st (r : Reg) (b : Byte) : (s.setV r b).st = s.st := rfl
@[simp] theorem setV_mem (r : Reg) (b : Byte) : (s.setV r b).mem = s.mem := rfl
@[simp] theorem setV_fb (r : Reg) (b : Byte) : (s.setV r b).fb = s.fb := rfl
@[simp] theorem setV_dirty (r : Reg) (b : Byte) : (s.setV r b).dirty = s.dirty := rfl
@[simp] theorem setV_fault (r : Reg) (b : Byte) : (s.setV r b).fault = s.fault := rfl
@[simp] theorem setV_displayChanged (r : Reg) (b : Byte) : (s.setV r b).displayChanged = s.displayChanged := rfl
@[simp] theorem setV_loadError (r : Reg) (b : Byte) : (s.setV r b).loadError = s.loadError := rfl
@[simp] theorem setV_trace (r : Reg) (b : Byte) : (s.setV r b).trace = s.trace := rfl
@[simp] theorem setV_feed (r : Reg) (b : Byte) : (s.setV r b).feed = s.feed := rfl
@[simp] theorem setV_samples (r : Reg) (b : Byte) : (s.setV r b).samples = s.samples := rfl
@[simp] theorem setV_input (r : Reg) (b : Byte) : (s.setV r b).input = s.input := rfl
@[simp] theorem setV_byteAt (r : Reg) (b : Byte) (p : Nat) : (s.setV r b).byteAt p = s.byteAt p := rfl

/-! ### `setIndex` -/

@[simp] theorem setIndex_v (a : Word) : (s.setIndex a).v = s.v := rfl
@[simp] theorem setIndex_index (a : Word) : (s.setIndex a).index = a := rfl
@[simp] theorem setIndex_pc (a : Word) : (s.setIndex a).pc = s.pc := rfl
@[simp] theorem setIndex_stack (a : Word) : (s.setIndex a).stack = s.stack := rfl
@[simp] theorem setIndex_dt (a : Word) : (s.setIndex a).dt = s.dt := rfl
@[simp] theorem setIndex_st (a : Word) : (s.setIndex a).st = s.st := rfl
@[simp] theorem setIndex_mem (a : Word) : (s.setIndex a).mem = s.mem := rfl
@[simp] theorem setIndex_fb (a : Word) : (s.setIndex a).fb = s.fb := rfl
@[simp] theorem setIndex_dirty (a : Word) : (s.setIndex a).dirty = s.dirty := rfl
@[simp] theorem setIndex_fault (a : Word) : (s.setIndex a).fault = s.fault := rfl
@[simp] theorem setIndex_displayChanged (a : Word) : (s.setIndex a).displayChanged = s.displayChanged := rfl
@[simp] theorem setIndex_loadError (a : Word) : (s.setIndex a).loadError = s.loadError := rfl
@[simp] theorem setIndex_trace (a : Word) : (s.setIndex a).trace = s.trace := rfl
@[simp] theorem setIndex_feed (a : Word) : (s.setIndex a).feed = s.feed := rfl
@[simp] theorem setIndex_samples (a : Word) : (s.setIndex a).samples = s.samples := rfl
@[simp] theorem setIndex_getV (a : Word) (k : Reg) : (s.setIndex a).getV k = s.getV k := rfl
@[simp] theorem setIndex_input (a : Word) : (s.setIndex a).input = s.input := rfl
@[simp] theorem setIndex_byteAt (a : Word) (p : Nat) : (s.setIndex a).byteAt p = s.byteAt p := rfl

/-! ### `setPc` -/

@[simp] theorem setPc_v (a : Word) : (s.setPc a).v = s.v := rfl
@[simp] theorem setPc_index (a : Word) : (s.setPc a).index = s.index := rfl
@[simp] theorem setPc_pc (a : Word) : (s.setPc a).pc = a := rfl
@[simp] theorem setPc_stack (a : Word) : (s.setPc a).stack = s.stack := rfl
@[simp] theorem setPc_dt (a : Word) : (s.setPc a).dt = s.dt := rfl
@[simp] theorem setPc_st (a : Word) : (s.setPc a).st = s.st := rfl
@[simp] theorem setPc_mem (a : Word) : (s.setPc a).mem = s.mem := rfl
@[simp] theorem setPc_fb (a : Word) : (s.setPc a).fb = s.fb := rfl
@[simp] theorem setPc_dirty (a : Word) : (s.setPc a).dirty = s.dirty := rfl
@[simp] theorem setPc_fault (a : Word) : (s.setPc a).fault = s.fault := rfl
@[simp] theorem setPc_displayChanged (a : Word) : (s.setPc a).displayChanged = s.displayChanged := rfl
@[simp] theorem setPc_loadError (a : Word) : (s.setPc a).loadError = s.loadError := rfl
@[simp] theorem setPc_trace (a : Word) : (s.setPc a).trace = s.trace := rfl
@[simp] theorem setPc_feed (a : Word) : (s.setPc a).feed = s.feed := rfl
@[simp] theorem setPc_samples (a : Word) : (s.setPc a).samples = s.samples := rfl
@[simp] theorem setPc_getV (a : Word) (k : Reg) : (s.setPc a).getV k = s.getV k := rfl
@[simp] theorem setPc_input (a : Word) : (s.setPc a).input = s.input := rfl
@[simp] theorem setPc_byteAt (a : Word) (p : Nat) : (s.setPc a).byteAt p = s.byteAt p := rfl

/-! ### `setStack` -/

@[simp] theorem setStack_v (l : List Word) : (s.setStack l).v = s.v := rfl
@[simp] theorem setStack_index (l : List Word) : (s.setStack l).index = s.index := rfl
@[simp] theorem setStack_pc (l : List Word) : (s.setStack l).pc = s.pc := rfl
@[simp] theorem setStack_stack (l : List Word) : (s.setStack l).stack = l := rfl
@[simp] theorem setStack_dt (l : List Word) : (s.setStack l).dt = s.dt := rfl
@[simp] theorem setStack_st (l : List Word) : (s.setStack l).st = s.st := rfl
@[simp] theorem setStack_mem (l : List Word) : (s.setStack l).mem = s.mem := rfl
@[simp] theorem setStack_fb (l : List Word) : (s.setStack l).fb = s.fb := rfl
@[simp] theorem setStack_dirty (l : List Word) : (s.setStack l).dirty = s.dirty := rfl
@[simp] theorem setStack_fault (l : List Word) : (s.setStack l).fault = s.fault := rfl
@[simp] theorem setStack_displayChanged (l : List Word) : (s.setStack l).displayChanged = s.displayChanged := rfl
@[simp] theorem setStack_loadError (l : List Word) : (s.setStack l).loadError = s.loadError := rfl
@[simp] theorem setStack_trace (l : List Word) : (s.setStack l).trace = s.trace := rfl
@[simp] theorem setStack_feed (l : List Word) : (s.setStack l).feed = s.feed := rfl
@[simp] theorem setStack_samples (l : List Word) : (s.setStack l).samples = s.samples := rfl
@[simp] theorem setStack_getV (l : List Word) (k : Reg) : (s.setStack l).getV k = s.getV k := rfl
@[simp] theorem setStack_input (l : List Word) : (s.setStack l).input = s.input := rfl
@[simp] theorem setStack_byteAt (l : List Word) (p : Nat) : (s.setStack l).byteAt p = s.byteAt p := rfl

/-! ### `setDt` -/

@[simp] theorem setDt_v (b : Byte) : (s.setDt b).v = s.v := rfl
@[simp] theorem setDt_index (b : Byte) : (s.setDt b).index = s.index := rfl
@[simp] theorem setDt_pc (b : Byte) : (s.setDt b).pc = s.pc := rfl
@[simp] theorem setDt_stack (b : Byte) : (s.setDt b).stack = s.stack := rfl
@[simp] theorem setDt_dt (b : Byte) : (s.setDt b).dt = b := rfl
@[simp] theorem setDt_st (b : Byte) : (s.setDt b).st = s.st := rfl
@[simp] theorem setDt_mem (b : Byte) : (s.setDt b).mem = s.mem := rfl
@[simp] theorem setDt_fb (b : Byte) : (s.setDt b).fb = s.fb := rfl
@[simp] theorem setDt_dirty (b : Byte) : (s.setDt b).dirty = s.dirty := rfl
@[simp] theorem setDt_fault (b : Byte) : (s.setDt b).fault = s.fault := rfl
@[simp] theorem setDt_displayChanged (b : Byte) : (s.setDt b).displayChanged = s.displayChanged := rfl
@[simp] theorem setDt_loadError (b : Byte) : (s.setDt b).loadError = s.loadError := rfl
@[simp] theorem setDt_trace (b : Byte) : (s.setDt b).trace = s.trace := rfl
@[simp] theorem setDt_feed (b : Byte) : (s.setDt b).feed = s.feed := rfl
@[simp] theorem setDt_samples (b : Byte) : (s.setDt b).samples = s.samples := rfl
@[simp] theorem setDt_getV (b : Byte) (k : Reg) : (s.setDt b).getV k = s.getV k := rfl
@[simp] theorem setDt_input (b : Byte) : (s.setDt b).input = s.input := rfl
@[simp] theorem setDt_byteAt (b : Byte) (p : Nat) : (s.setDt b).byteAt p = s.byteAt p := rfl

/-! ### `setSt` -/

@[simp] theorem setSt_v (b : Byte) : (s.setSt b).v = s.v := rfl
@[simp] theorem setSt_index (b : Byte) : (s.setSt b).index = s.index := rfl
@[simp] theorem setSt_pc (b : Byte) : (s.setSt b).pc = s.pc := rfl
@[simp] theorem setSt_stack (b : Byte) : (s.setSt b).stack = s.stack := rfl
@[simp] theorem setSt_dt (b : Byte) : (s.setSt b).dt = s.dt := rfl
@[simp] theorem setSt_st (b : Byte) : (s.setSt b).st = b := rfl
@[simp] theorem setSt_mem (b : Byte) : (s.setSt b).mem = s.mem := rfl
@[simp] theorem setSt_fb (b : Byte) : (s.setSt b).fb = s.fb := rfl
@[simp] theorem setSt_dirty (b : Byte) : (s.setSt b).dirty = s.dirty := rfl
@[simp] theorem setSt_fault (b : Byte) : (s.setSt b).fault = s.fault := rfl
@[simp] theorem setSt_displayChanged (b : Byte) : (s.setSt b).displayChanged = s.displayChanged := rfl
@[simp] theorem setSt_loadError (b : Byte) : (s.setSt b).loadError = s.loadError := rfl
@[simp] theorem setSt_trace (b : Byte) : (s.setSt b).trace = s.trace := rfl
@[simp] theorem setSt_feed (b : Byte) : (s.setSt b).feed = s.feed := rfl
@[simp] theorem setSt_samples (b : Byte) : (s.setSt b).samples = s.samples := rfl
@[simp] theorem setSt_getV (b : Byte) (k : Reg) : (s.setSt b).getV k = s.getV k := rfl
@[simp] theorem setSt_input (b : Byte) : (s.setSt b).input = s.input := rfl
@[simp] theorem setSt_byteAt (b : Byte) (p : Nat) : (s.setSt b).byteAt p = s.byteAt p := rfl

/-! ### `setMem` -/

@[simp] theorem setMem_v (m : Memory) : (s.setMem m).v = s.v := rfl
@[simp] theorem setMem_index (m : Memory) : (s.setMem m).index = s.index := rfl
@[simp] theorem setMem_pc (m : Memory) : (s.setMem m).pc = s.pc := rfl
@[simp] theorem setMem_stack (m : Memory) : (s.setMem m).stack = s.stack := rfl
@[simp] theorem setMem_dt (m : Memory) : (s.setMem m).dt = s.dt := rfl
@[simp] theorem setMem_st (m : Memory) : (s.setMem m).st = s.st := rfl
@[simp] theorem setMem_mem (m : Memory) : (s.setMem m).mem = m := rfl
@[simp] theorem setMem_fb (m : Memory) : (s.setMem m).fb = s.fb := rfl
@[simp] theorem setMem_dirty (m : Memory) : (s.setMem m).dirty = s.dirty := rfl
@[simp] theorem setMem_fault (m : Memory) : (s.setMem m).fault = s.fault := rfl
@[simp] theorem setMem_displayChanged (m : Memory) : (s.setMem m).displayChanged = s.displayChanged := rfl
@[simp] theorem setMem_loadError (m : Memory) : (s.setMem m).loadError = s.loadError := rfl
@[simp] theorem setMem_trace (m : Memory) : (s.setMem m).trace = s.trace := rfl
@[simp] theorem setMem_feed (m : Memory) : (s.setMem m).feed = s.feed := rfl
@[simp] theorem setMem_samples (m : Memory) : (s.setMem m).samples = s.samples := rfl
@[simp] theorem setMem_getV (m : Memory) (k : Reg) : (s.setMem m).getV k = s.getV k := rfl
@[simp] theorem setMem_input (m : Memory) : (s.setMem m).input = s.input := rfl
@[simp] theorem setMem_byteAt (m : Memory) (p : Nat) : (s.setMem m).byteAt p = m.read p := rfl

/-! ### `setFb` -/

@[simp] theorem setFb_v (f : Framebuffer) : (s.setFb f).v = s.v := rfl
@[simp] theorem setFb_index (f : Framebuffer) : (s.setFb f).index = s.index := rfl
@[simp] theorem setFb_pc (f : Framebuffer) : (s.setFb f).pc = s.pc := rfl
@[simp] theorem setFb_stack (f : Framebuffer) : (s.setFb f).stack = s.stack := rfl
@[simp] theorem setFb_dt (f : Framebuffer) : (s.setFb f).dt = s.dt := rfl
@[simp] theorem setFb_st (f : Framebuffer) : (s.setFb f).st = s.st := rfl
@[simp] theorem setFb_mem (f : Framebuffer) : (s.setFb f).mem = s.mem := rfl
@[simp] theorem setFb_fb (f : Framebuffer) : (s.setFb f).fb = f := rfl
@[simp] theorem setFb_dirty (f : Framebuffer) : (s.setFb f).dirty = s.dirty := rfl
@[simp] theorem setFb_fault (f : Framebuffer) : (s.setFb f).fault = s.fault := rfl
@[simp] theorem setFb_displayChanged (f : Framebuffer) : (s.setFb f).displayChanged = s.displayChanged := rfl
@[simp] theorem setFb_loadError (f : Framebuffer) : (s.setFb f).loadError = s.loadError := rfl
@[simp] theorem setFb_trace (f : Framebuffer) : (s.setFb f).trace = s.trace := rfl
@[simp] theorem setFb_feed (f : Framebuffer) : (s.setFb f).feed = s.feed := rfl
@[simp] theorem setFb_samples (f : Framebuffer) : (s.setFb f).samples = s.samples := rfl
@[simp] theorem setFb_getV (f : Framebuffer) (k : Reg) : (s.setFb f).getV k = s.getV k := rfl
@[simp] theorem setFb_input (f : Framebuffer) : (s.setFb f).input = s.input := rfl
@[simp] theorem setFb_byteAt (f : Framebuffer) (p : Nat) : (s.setFb f).byteAt p = s.byteAt p := rfl

/-! ### `setDirty` -/

@[simp] theorem setDirty_v (b : Bool) : (s.setDirty b).v = s.v := rfl
@[simp] theorem setDirty_index (b : Bool) : (s.setDirty b).index = s.index := rfl
@[simp] theorem setDirty_pc (b : Bool) : (s.setDirty b).pc = s.pc := rfl
@[simp] theorem setDirty_stack (b : Bool) : (s.setDirty b).stack = s.stack := rfl
@[simp] theorem setDirty_dt (b : Bool) : (s.setDirty b).dt = s.dt := rfl
@[simp] theorem setDirty_st (b : Bool) : (s.setDirty b).st = s.st := rfl
@[simp] theorem setDirty_mem (b : Bool) : (s.setDirty b).mem = s.mem := rfl
@[simp] theorem setDirty_fb (b : Bool) : (s.setDirty b).fb = s.fb := rfl
@[simp] theorem setDirty_dirty (b : Bool) : (s.setDirty b).dirty = b := rfl
@[simp] theorem setDirty_fault (b : Bool) : (s.setDirty b).fault = s.fault := rfl
@[simp] theorem setDirty_displayChanged (b : Bool) : (s.setDirty b).displayChanged = s.displayChanged := rfl
@[simp] theorem setDirty_loadError (b : Bool) : (s.setDirty b).loadError = s.loadError := rfl
@[simp] theorem setDirty_trace (b : Bool) : (s.setDirty b).trace = s.trace := rfl
@[simp] theorem setDirty_feed (b : Bool) : (s.setDirty b).feed = s.feed := rfl
@[simp] theorem setDirty_samples (b : Bool) : (s.setDirty b).samples = s.samples := rfl
@[simp] theorem setDirty_getV (b : Bool) (k : Reg) : (s.setDirty b).getV k = s.getV k := rfl
@[simp] theorem setDirty_input (b : Bool) : (s.setDirty b).input = s.input := rfl
@[simp] theorem setDirty_byteAt (b : Bool) (p : Nat) : (s.setDirty b).byteAt p = s.byteAt p := rfl

/-! ### `setFault` -/

@[simp] theorem setFault_v (f : Option FaultCode) : (s.setFault f).v = s.v := rfl
@[simp] theorem setFault_index (f : Option FaultCode) : (s.setFault f).index = s.index := rfl
@[simp] theorem setFault_pc (f : Option FaultCode) : (s.setFault f).pc = s.pc := rfl
@[simp] theorem setFault_stack (f : Option FaultCode) : (s.setFault f).stack = s.stack := rfl
@[simp] theorem setFault_dt (f : Option FaultCode) : (s.setFault f).dt = s.dt := rfl
@[simp] theorem setFault_st (f : Option FaultCode) : (s.setFault f).st = s.st := rfl
@[simp] theorem setFault_mem (f : Option FaultCode) : (s.setFault f).mem = s.mem := rfl
@[simp] theorem setFault_fb (f : Option FaultCode) : (s.setFault f).fb = s.fb := rfl
@[simp] theorem setFault_dirty (f : Option FaultCode) : (s.setFault f).dirty = s.dirty := rfl
@[simp] theorem setFault_fault (f : Option FaultCode) : (s.setFault f).fault = f := rfl
@[simp] theorem setFault_displayChanged (f : Option FaultCode) : (s.setFault f).displayChanged = s.displayChanged := rfl
@[simp] theorem setFault_loadError (f : Option FaultCode) : (s.setFault f).loadError = s.loadError := rfl
@[simp] theorem setFault_trace (f : Option FaultCode) : (s.setFault f).trace = s.trace := rfl
@[simp] theorem setFault_feed (f : Option FaultCode) : (s.setFault f).feed = s.feed := rfl
@[simp] theorem setFault_samples (f : Option FaultCode) : (s.setFault f).samples = s.samples := rfl
@[simp] theorem setFault_getV (f : Option FaultCode) (k : Reg) : (s.setFault f).getV k = s.getV k := rfl
@[simp] theorem setFault_input (f : Option FaultCode) : (s.setFault f).input = s.input := rfl
@[simp] theorem setFault_byteAt (f : Option FaultCode) (p : Nat) : (s.setFault f).byteAt p = s.byteAt p := rfl

/-! ### `setDisplayChanged` -/

@[simp] theorem setDisplayChanged_v (b : Bool) : (s.setDisplayChanged b).v = s.v := rfl
@[simp] theorem setDisplayChanged_index (b : Bool) : (s.setDisplayChanged b).index = s.index := rfl
@[simp] theorem setDisplayChanged_pc (b : Bool) : (s.setDisplayChanged b).pc = s.pc := rfl
@[simp] theorem setDisplayChanged_stack (b : Bool) : (s.setDisplayChanged b).stack = s.stack := rfl
@[simp] theorem setDisplayChanged_dt (b : Bool) : (s.setDisplayChanged b).dt = s.dt := rfl
@[simp] theorem setDisplayChanged_st (b : Bool) : (s.setDisplayChanged b).st = s.st := rfl
@[simp] theorem setDisplayChanged_mem (b : Bool) : (s.setDisplayChanged b).mem = s.mem := rfl
@[simp] theorem setDisplayChanged_fb (b : Bool) : (s.setDisplayChanged b).fb = s.fb := rfl
@[simp] theorem setDisplayChanged_dirty (b : Bool) : (s.setDisplayChanged b).dirty = s.dirty := rfl
@[simp] theorem setDisplayChanged_fault (b : Bool) : (s.setDisplayChanged b).fault = s.fault := rfl
@[simp] theorem setDisplayChanged_displayChanged (b : Bool) : (s.setDisplayChanged b).displayChanged = b := rfl
@[simp] theorem setDisplayChanged_loadError (b : Bool) : (s.setDisplayChanged b).loadError = s.loadError := rfl
@[simp] theorem setDisplayChanged_trace (b : Bool) : (s.setDisplayChanged b).trace = s.trace := rfl
@[simp] theorem setDisplayChanged_feed (b : Bool) : (s.setDisplayChanged b).feed = s.feed := rfl
@[simp] theorem setDisplayChanged_samples (b : Bool) : (s.setDisplayChanged b).samples = s.samples := rfl
@[simp] theorem setDisplayChanged_getV (b : Bool) (k : Reg) : (s.setDisplayChanged b).getV k = s.getV k := rfl
@[simp] theorem setDisplayChanged_input (b : Bool) : (s.setDisplayChanged b).input = s.input := rfl
@[simp] theorem setDisplayChanged_byteAt (b : Bool) (p : Nat) : (s.setDisplayChanged b).byteAt p = s.byteAt p := rfl

/-! ### `emit` -/

@[simp] theorem emit_v (e : Event) : (s.emit e).v = s.v := rfl
@[simp] theorem emit_index (e : Event) : (s.emit e).index = s.index := rfl
@[simp] theorem emit_pc (e : Event) : (s.emit e).pc = s.pc := rfl
@[simp] theorem emit_stack (e : Event) : (s.emit e).stack = s.stack := rfl
@[simp] theorem emit_dt (e : Event) : (s.emit e).dt = s.dt := rfl
@[simp] theorem emit_st (e : Event) : (s.emit e).st = s.st := rfl
@[simp] theorem emit_mem (e : Event) : (s.emit e).mem = s.mem := rfl
@[simp] theorem emit_fb (e : Event) : (s.emit e).fb = s.fb := rfl
@[simp] theorem emit_dirty (e : Event) : (s.emit e).dirty = s.dirty := rfl
@[simp] theorem emit_fault (e : Event) : (s.emit e).fault = s.fault := rfl
@[simp] theorem emit_displayChanged (e : Event) : (s.emit e).displayChanged = s.displayChanged := rfl
@[simp] theorem emit_loadError (e : Event) : (s.emit e).loadError = s.loadError := rfl
@[simp] theorem emit_trace (e : Event) : (s.emit e).trace = s.trace ++ [e] := rfl
@[simp] theorem emit_feed (e : Event) : (s.emit e).feed = s.feed := rfl
@[simp] theorem emit_samples (e : Event) : (s.emit e).samples = s.samples := rfl
@[simp] theorem emit_getV (e : Event) (k : Reg) : (s.emit e).getV k = s.getV k := rfl
@[simp] theorem emit_input (e : Event) : (s.emit e).input = s.input := rfl
@[simp] theorem emit_byteAt (e : Event) (p : Nat) : (s.emit e).byteAt p = s.byteAt p := rfl

/-! ### `nextInput` -/

@[simp] theorem nextInput_v : s.nextInput.v = s.v := rfl
@[simp] theorem nextInput_index : s.nextInput.index = s.index := rfl
@[simp] theorem nextInput_pc : s.nextInput.pc = s.pc := rfl
@[simp] theorem nextInput_stack : s.nextInput.stack = s.stack := rfl
@[simp] theorem nextInput_dt : s.nextInput.dt = s.dt := rfl
@[simp] theorem nextInput_st : s.nextInput.st = s.st := rfl
@[simp] theorem nextInput_mem : s.nextInput.mem = s.mem := rfl
@[simp] theorem nextInput_fb : s.nextInput.fb = s.fb := rfl
@[simp] theorem nextInput_dirty : s.nextInput.dirty = s.dirty := rfl
@[simp] theorem nextInput_fault : s.nextInput.fault = s.fault := rfl
@[simp] theorem nextInput_displayChanged : s.nextInput.displayChanged = s.displayChanged := rfl
@[simp] theorem nextInput_loadError : s.nextInput.loadError = s.loadError := rfl
@[simp] theorem nextInput_trace : s.nextInput.trace = s.trace := rfl
@[simp] theorem nextInput_feed : s.nextInput.feed = s.feed.tail := rfl
@[simp] theorem nextInput_samples : s.nextInput.samples = s.samples + 1 := rfl
@[simp] theorem nextInput_getV (k : Reg) : s.nextInput.getV k = s.getV k := rfl
@[simp] theorem nextInput_byteAt (p : Nat) : s.nextInput.byteAt p = s.byteAt p := rfl

/-! ### Registers -/

theorem setV_getV (r k : Reg) (b : Byte) : (s.setV r b).getV k = if k = r then b else s.getV k := by
  simp only [getV, setV, Fin.getElem_fin, Vector.getElem_set]
  by_cases h : k = r
  · simp [h]
  · have : (r : Nat) ≠ k := fun e => h (Fin.ext e.symm)
    simp [h, this]

@[simp] theorem setV_getV_same (r : Reg) (b : Byte) : (s.setV r b).getV r = b := by simp [setV_getV]

/-- States are equal when every register and every other field agree. -/
theorem ext_getV {s t : State} (hv : ∀ r, s.getV r = t.getV r) (h : s = { t with v := s.v }) : s = t := by
  have hv' : s.v = t.v := by
    apply Vector.ext
    intro i hi
    exact hv ⟨i, hi⟩
  rw [h, hv']

end Sys2Proof.Machine.State
end

