-- ==== Sys2Proof/Laws/Memory.lean ====
section
/-! SUPPORT. The laws of memory: a read after a write, the canonical form and its preservation, runs of bytes
(spec/20_memory.md R63, R65). No law needs the canonical form to hold before. -/

namespace Sys2Proof.Machine

theorem readCells_insertCell (a : Nat) (b : Byte) (l : List Host.Cell) (h : ∀ c ∈ l, c.1 ≠ a) (p : Nat) :
    readCells (insertCell a b l) p = if p = a then b else readCells l p := by
  induction l with
  | nil => simp [insertCell, readCells, eq_comm]
  | cons c rest ih =>
    have hc : c.1 ≠ a := h c (by simp)
    have hr := ih fun d hd => h d (by simp [hd])
    simp only [insertCell]
    split
    · simp only [readCells]
      by_cases hp : p = a
      · simp [hp]
      · simp [hp, Ne.symm hp]
    · simp only [readCells, hr]
      by_cases hp : p = a
      · subst hp; simp [hc]
      · simp [hp]

theorem readCells_filter (l : List Host.Cell) (a p : Nat) :
    readCells (l.filter fun c => decide (c.1 ≠ a)) p = if p = a then initialByte a else readCells l p := by
  induction l with
  | nil => by_cases hp : p = a <;> simp [readCells, hp]
  | cons c rest ih =>
    by_cases hc : c.1 = a
    · rw [List.filter_cons_of_neg (by simp [hc]), ih]
      by_cases hp : p = a
      · simp [hp]
      · have : ¬ c.1 = p := fun e => hp (e.symm.trans hc)
        simp [hp, readCells, this]
    · rw [List.filter_cons_of_pos (by simpa using hc)]
      simp only [readCells, ih]
      by_cases hp : p = a
      · subst hp; simp [hc]
      · simp [hp]

/-- Reading after writing: the byte at that address is the one written, every other byte is as before. -/
theorem Memory.read_write (m : Memory) (a : Nat) (b : Byte) (p : Nat) :
    (m.write a b).read p = if p = a then b else m.read p := by
  simp only [Memory.read, Memory.write]
  split
  · rename_i hb
    rw [readCells_filter]
    by_cases hp : p = a <;> simp [hp, hb]
  · rw [readCells_insertCell _ _ _ (by simp), readCells_filter]
    by_cases hp : p = a <;> simp [hp]

/-- Reading after writing a run of bytes. -/
theorem Memory.read_writeList (bs : List Byte) (m : Memory) (a p : Nat) :
    (m.writeList a bs).read p = if h : a ≤ p ∧ p < a + bs.length then bs[p - a]'(by omega) else m.read p := by
  induction bs generalizing m a with
  | nil => simp [Memory.writeList]
  | cons b bs ih =>
    simp only [Memory.writeList, ih, Memory.read_write, List.length_cons]
    by_cases h1 : a + 1 ≤ p ∧ p < a + 1 + bs.length
    · have h2 : a ≤ p ∧ p < a + (bs.length + 1) := by omega
      obtain ⟨k, rfl⟩ : ∃ k, p = a + 1 + k := ⟨p - (a + 1), by omega⟩
      have h3 : a + 1 + k - a = k + 1 := by omega
      simp [h1, h2, h3]
    · by_cases hp : p = a
      · subst hp; simp
      · have h2 : ¬ (a ≤ p ∧ p < a + (bs.length + 1)) := by omega
        rw [dif_neg h1, dif_neg h2, if_neg hp]

theorem mem_insertCell (a : Nat) (b : Byte) (l : List Host.Cell) (c : Host.Cell) :
    c ∈ insertCell a b l ↔ c = (a, b) ∨ c ∈ l := by
  induction l with
  | nil => simp [insertCell]
  | cons d rest ih =>
    simp only [insertCell]
    split
    · simp
    · simp [ih, or_left_comm]

theorem insertCell_rising (a : Nat) (b : Byte) (l : List Host.Cell) (hl : l.Pairwise fun c d => c.1 < d.1)
    (ha : ∀ c ∈ l, c.1 ≠ a) : (insertCell a b l).Pairwise fun c d => c.1 < d.1 := by
  induction l with
  | nil => simp [insertCell]
  | cons d rest ih =>
    have hd := List.pairwise_cons.mp hl
    simp only [insertCell]
    split
    · rename_i hlt
      refine List.pairwise_cons.mpr ⟨?_, hl⟩
      intro c hc
      rcases List.mem_cons.mp hc with rfl | hc
      · exact hlt
      · exact Nat.lt_trans hlt (hd.1 c hc)
    · rename_i hge
      have hne : d.1 ≠ a := ha d (by simp)
      refine List.pairwise_cons.mpr ⟨?_, ih hd.2 fun c hc => ha c (by simp [hc])⟩
      intro c hc
      rcases (mem_insertCell ..).mp hc with rfl | hc
      · show d.1 < a
        omega
      · exact hd.1 c hc

/-- A write to an address of the space keeps the canonical form. -/
theorem Memory.wf_write {m : Memory} (h : m.wf) (a : Nat) (b : Byte) (ha : a < Config.memSize) :
    (m.write a b).wf := by
  have hsub : (m.cells.filter fun c => decide (c.1 ≠ a)).Pairwise fun c d => c.1 < d.1 :=
    h.1.sublist List.filter_sublist
  simp only [Memory.wf, Memory.write]
  split
  · exact ⟨hsub, fun c hc => h.2 c (List.mem_filter.mp hc).1⟩
  · rename_i hb
    refine ⟨insertCell_rising a b _ hsub (by simp), ?_⟩
    intro c hc
    rcases (mem_insertCell ..).mp hc with rfl | hc
    · exact ⟨hb, ha⟩
    · exact h.2 c (List.mem_filter.mp hc).1

theorem Memory.wf_writeList (bs : List Byte) {m : Memory} (h : m.wf) (a : Nat)
    (ha : a + bs.length ≤ Config.memSize) : (m.writeList a bs).wf := by
  induction bs generalizing m a with
  | nil => exact h
  | cons b bs ih =>
    simp only [List.length_cons] at ha
    exact ih (Memory.wf_write h a b (by omega)) (a + 1) (by omega)

/-- Memory with nothing listed reads as the reset contents and has the canonical form. -/
theorem Memory.wf_empty : (⟨[]⟩ : Memory).wf := by simp [Memory.wf]

@[simp] theorem Memory.read_empty (a : Nat) : (⟨[]⟩ : Memory).read a = initialByte a := rfl

@[simp] theorem Memory.writeList_nil (m : Memory) (a : Nat) : m.writeList a [] = m := rfl

theorem Memory.writeList_cons (m : Memory) (a : Nat) (b : Byte) (bs : List Byte) :
    m.writeList a (b :: bs) = (m.write a b).writeList (a + 1) bs := rfl

end Sys2Proof.Machine
end

