-- ==== Sys2Proof/Laws/Ops.lean ====
section
/-! SUPPORT. What each shared operation can do, said once: memory accesses and their loops, the call stack, flag writes,
the framebuffer controller, the key port. Proofs cite these instead of unfolding the operations. -/

namespace Sys2Proof.Machine

variable (s : State)

/-! ### Flow -/

@[simp] theorem Flow.andThen_done {α β : Type} (a : α) (t : State) (k : α → State → Flow β) :
    (Flow.done a t).andThen k = k a t := rfl

@[simp] theorem Flow.andThen_raised {α β : Type} (t : State) (k : α → State → Flow β) :
    (Flow.raised t : Flow α).andThen k = .raised t := rfl

@[simp] theorem Flow.final_done {α : Type} (a : α) (t : State) : (Flow.done a t).final = t := rfl

@[simp] theorem Flow.final_raised {α : Type} (t : State) : (Flow.raised t : Flow α).final = t := rfl

/-! ### Taking a fault -/

/-- A fault sets the latch and nothing else. -/
theorem takeFault_eq (c : FaultCode) : takeFault c s = { s with fault := some c } := rfl

/-- An out-of-range access sets the latch and emits the address. -/
theorem takeOutOfRange_eq (a : Nat) :
    takeOutOfRange a s = { s with fault := some .memOutOfRange, trace := s.trace ++ [.outOfRange a] } := rfl

/-! ### Memory accesses -/

theorem memRead_inRange {a : Nat} (h : a < Config.memSize) : memRead a s = .done (s.byteAt a) s := by
  simp [memRead, h, State.byteAt]

theorem memRead_outOfRange {a : Nat} (h : Config.memSize ≤ a) : memRead a s = .raised (takeOutOfRange a s) := by
  simp [memRead, Nat.not_lt.mpr h]

theorem memWrite_inRange {a : Nat} (h : a < Config.memSize) (b : Byte) :
    memWrite a b s = .done () (s.setMem (s.mem.write a b)) := by simp [memWrite, h]

theorem memWrite_outOfRange {a : Nat} (h : Config.memSize ≤ a) (b : Byte) :
    memWrite a b s = .raised (takeOutOfRange a s) := by simp [memWrite, Nat.not_lt.mpr h]

/-- A run of stores inside the space writes every byte and nothing else. -/
theorem storeBytes_fits (bs : List Byte) (a : Nat) (h : a + bs.length ≤ Config.memSize) :
    storeBytes a bs s = .done () (s.setMem (s.mem.writeList a bs)) := by
  induction bs generalizing a s with
  | nil => rfl
  | cons b bs ih =>
    simp only [List.length_cons] at h
    rw [storeBytes, memWrite_inRange s (by omega), Flow.andThen_done, ih _ _ (by omega)]
    rfl

/-- A run of stores that leaves the space writes the bytes that fit, then raises at the first that does not. -/
theorem storeBytes_overruns (bs : List Byte) (hb : bs ≠ []) (a : Nat) (h : Config.memSize < a + bs.length) :
    storeBytes a bs s = .raised (takeOutOfRange (max a Config.memSize)
      (s.setMem (s.mem.writeList a (bs.take (Config.memSize - a))))) := by
  induction bs generalizing a s with
  | nil => exact absurd rfl hb
  | cons b bs ih =>
    simp only [List.length_cons] at h
    by_cases ha : a < Config.memSize
    · have hbs : bs ≠ [] := by
        rintro rfl
        simp only [List.length_nil] at h
        omega
      rw [storeBytes, memWrite_inRange s ha, Flow.andThen_done, ih _ hbs _ (by omega)]
      have h1 : Config.memSize - a = Config.memSize - (a + 1) + 1 := by omega
      have h2 : max (a + 1) Config.memSize = max a Config.memSize := by omega
      rw [h1, h2, List.take_succ_cons, Memory.writeList_cons]
      rfl
    · rw [storeBytes, memWrite_outOfRange s (by omega), Flow.andThen_raised]
      have h1 : Config.memSize - a = 0 := by omega
      have h2 : max a Config.memSize = a := by omega
      rw [h1, h2, List.take_zero, Memory.writeList_nil]
      rfl

/-- What loading an ascending list of registers leaves: each listed register whose address exists holds its byte, and
nothing else but the latch and the trace changes. -/
theorem loadRegs_final (base : Nat) (ks : List Reg) (hk : ks.Pairwise (· < ·)) :
    (∀ r, (loadRegs base ks s).final.getV r =
      if r ∈ ks ∧ base + r < Config.memSize then s.byteAt (base + r) else s.getV r) ∧
    ((∀ k ∈ ks, base + k < Config.memSize) →
      (loadRegs base ks s).final = { s with v := (loadRegs base ks s).final.v }) ∧
    (∀ k ∈ ks, Config.memSize ≤ base + k → (∀ j ∈ ks, j < k → base + j < Config.memSize) →
      (loadRegs base ks s).final = { takeOutOfRange (base + k) s with v := (loadRegs base ks s).final.v }) := by
  induction ks generalizing s with
  | nil => simp [loadRegs]
  | cons k ks ih =>
    have hp := List.pairwise_cons.mp hk
    by_cases hin : base + k < Config.memSize
    · have hstep : loadRegs base (k :: ks) s = loadRegs base ks (s.setV k (s.byteAt (base + k))) := by
        rw [loadRegs, memRead_inRange s hin, Flow.andThen_done]
      obtain ⟨h1, h2, h3⟩ := ih (s.setV k (s.byteAt (base + k))) hp.2
      rw [hstep]
      refine ⟨fun r => ?_, fun hall => ?_, fun j hj hjo hjs => ?_⟩
      · rw [h1 r]
        by_cases hr : r = k
        · subst hr
          have : r ∉ ks := fun hmem => absurd (hp.1 r hmem) (by simp)
          simp [this, hin]
        · simp [hr, State.setV_getV]
      · exact h2 fun j hj => hall j (by simp [hj])
      · rcases List.mem_cons.mp hj with rfl | hj
        · omega
        · exact h3 j hj hjo fun i hi hij => hjs i (by simp [hi]) hij
    · have hraise : loadRegs base (k :: ks) s = .raised (takeOutOfRange (base + k) s) := by
        rw [loadRegs, memRead_outOfRange s (by omega), Flow.andThen_raised]
      rw [hraise, Flow.final_raised]
      refine ⟨fun r => ?_, fun hall => absurd (hall k (by simp)) hin, fun j hj hjo hjs => ?_⟩
      · have hno : ¬ (r ∈ k :: ks ∧ base + r < Config.memSize) := by
          rintro ⟨hr, hlt⟩
          rcases List.mem_cons.mp hr with rfl | hr
          · exact hin hlt
          · have := hp.1 r hr
            have : (k : Nat) < r := this
            omega
        simp only [hno, if_false]
        rfl
      · rcases List.mem_cons.mp hj with rfl | hj
        · rfl
        · exact absurd (hjs k (by simp) (hp.1 j hj)) hin

/-- Whatever its addresses, a run of stores changes memory, and the latch and the trace when it raises; nothing else. -/
theorem storeBytes_frame (bs : List Byte) (a : Nat) : ∃ m f tr,
    (storeBytes a bs s).final = { s with mem := m, fault := f, trace := tr } ∧
      (f = s.fault ∨ f = some .memOutOfRange) := by
  induction bs generalizing a s with
  | nil => exact ⟨_, _, _, rfl, .inl rfl⟩
  | cons b bs ih =>
    by_cases h : a < Config.memSize
    · rw [storeBytes, memWrite_inRange s h, Flow.andThen_done]
      obtain ⟨m, f, tr, h1, h2⟩ := ih (s.setMem (s.mem.write a b)) (a + 1)
      exact ⟨m, f, tr, by rw [h1]; rfl, h2⟩
    · rw [storeBytes, memWrite_outOfRange s (by omega), Flow.andThen_raised]
      exact ⟨_, _, _, rfl, .inr rfl⟩

/-- Whatever its addresses, loading registers changes registers, and the latch and the trace when it raises; nothing
else. -/
theorem loadRegs_frame (base : Nat) (ks : List Reg) : ∃ v f tr,
    (loadRegs base ks s).final = { s with v := v, fault := f, trace := tr } ∧
      (f = s.fault ∨ f = some .memOutOfRange) := by
  induction ks generalizing s with
  | nil => exact ⟨_, _, _, rfl, .inl rfl⟩
  | cons k ks ih =>
    by_cases h : base + k < Config.memSize
    · rw [loadRegs, memRead_inRange s h, Flow.andThen_done]
      obtain ⟨v, f, tr, h1, h2⟩ := ih (s.setV k (s.byteAt (base + k)))
      exact ⟨v, f, tr, by rw [h1]; rfl, h2⟩
    · rw [loadRegs, memRead_outOfRange s (by omega), Flow.andThen_raised]
      exact ⟨_, _, _, rfl, .inr rfl⟩

/-! ### The register range of the block transfers -/

theorem mem_regsThrough (x k : Reg) : k ∈ regsThrough x ↔ k ≤ x := by simp [regsThrough]

theorem regsThrough_ascending (x : Reg) : (regsThrough x).Pairwise (· < ·) := by
  revert x; decide

theorem regsThrough_length (x : Reg) : (regsThrough x).length = x + 1 := by
  revert x; decide

theorem regsThrough_get (x : Reg) (k : Nat) (h : k < (regsThrough x).length) :
    ((regsThrough x)[k] : Nat) = k := by
  revert x k; decide

theorem valuesThrough_length (x : Reg) : (s.valuesThrough x).length = x + 1 := by
  simp [State.valuesThrough, regsThrough_length]

theorem valuesThrough_get (x : Reg) (k : Nat) (h : k < (s.valuesThrough x).length) (hk : k < 16) :
    (s.valuesThrough x)[k] = s.getV ⟨k, hk⟩ := by
  simp only [State.valuesThrough, List.getElem_map]
  congr 1
  exact Fin.ext (regsThrough_get x k _)

/-! ### The call stack -/

theorem push_room {a : Word} (h : s.stack.length < Config.stackDepth) :
    push a s = .done () (s.setStack (s.stack ++ [a])) := by simp [push, Nat.not_le.mpr h]

theorem push_full {a : Word} (h : Config.stackDepth ≤ s.stack.length) :
    push a s = .raised (takeFault .stackOverflow s) := by simp [push, h]

theorem pop_empty (h : s.stack = []) : pop s = .raised (takeFault .stackUnderflow s) := by simp [pop, h]

theorem pop_append {l : List Word} {a : Word} (h : s.stack = l ++ [a]) : pop s = .done a (s.setStack l) := by
  simp [pop, h]

/-! ### Flag writes -/

/-- A flag-writing instruction changes V[X] and VF only; with X = F the flag remains. -/
theorem writeWithFlag_getV (x : Reg) (b : Byte) (c : Bool) (r : Reg) :
    (writeWithFlag x b c s).getV r =
      if r = flagReg then flagByte c else if r = x then b else s.getV r := by
  simp [writeWithFlag, State.setV_getV]

theorem writeWithFlag_frame (x : Reg) (b : Byte) (c : Bool) :
    writeWithFlag x b c s = { s with v := (writeWithFlag x b c s).v } := rfl

/-! ### The framebuffer controller -/

theorem Framebuffer.get_put (f : Framebuffer) (x x' : Fin 64) (y y' : Fin 32) (lit : Bool) :
    (f.put x y lit).get x' y' = if x' = x ∧ y' = y then lit else f.get x' y' := by
  simp only [Framebuffer.get, Framebuffer.put, Fin.getElem_fin]
  by_cases hy : y' = y
  · subst hy
    by_cases hx : x' = x
    · subst hx; simp
    · have : (x : Nat) ≠ x' := fun h => hx (Fin.ext h.symm)
      simp [hx, this]
  · have : (y : Nat) ≠ y' := fun h => hy (Fin.ext h.symm)
    simp [hy, this]

/-- Framebuffers are equal when every cell agrees. -/
theorem Framebuffer.ext_get {f g : Framebuffer} (h : ∀ x y, f.get x y = g.get x y) : f = g := by
  obtain ⟨f⟩ := f
  obtain ⟨g⟩ := g
  congr 1
  apply Vector.ext
  intro j hj
  apply Vector.ext
  intro i hi
  exact h ⟨i, hi⟩ ⟨j, hj⟩

@[simp] theorem Framebuffer.get_blank (x : Fin 64) (y : Fin 32) : Framebuffer.blank.get x y = false := by
  simp [Framebuffer.get, Framebuffer.blank]

/-- Toggling flips the one cell and reports whether it was lit. -/
theorem writePixel_toggle (x : Fin 64) (y : Fin 32) (f : Framebuffer) :
    writePixel x y .toggle f = (f.put x y (!f.get x y), f.get x y) := by
  cases h : f.get x y <;> simp [writePixel, h]

theorem writePixel_clear (x : Fin 64) (y : Fin 32) (f : Framebuffer) :
    writePixel x y .clear f = (f.put x y false, false) := rfl

/-! ### The key port -/

theorem lowestKey_some {down : BitVec 16} {k : Reg} (h : lowestKey down = some k) : down.getLsbD k = true := by
  simpa using List.find?_some h

theorem lowestKey_none {down : BitVec 16} : lowestKey down = none ↔ ∀ k : Reg, down.getLsbD k = false := by
  simp [lowestKey]

end Sys2Proof.Machine
end

