-- ==== Sys2Proof/Laws/Display.lean ====
section
/-! SUPPORT. What a sprite draw does, said once: it toggles a list of cells in order (spec/44_display.md R225), and
toggling a list of cells flips those cells and leaves the last one's collision in VF (R226). -/

namespace Sys2Proof.Machine

/-! ### Toggling a list of cells -/

/-- Toggle cells one after another. -/
def toggleAll (ps : List (Fin 64 × Fin 32)) (s : State) : State :=
  ps.foldl (fun t p => togglePixel p.1 p.2 t) s

@[simp] theorem toggleAll_nil (s : State) : toggleAll [] s = s := rfl

theorem toggleAll_append (ps qs : List (Fin 64 × Fin 32)) (s : State) :
    toggleAll (ps ++ qs) s = toggleAll qs (toggleAll ps s) := List.foldl_append

/-- One toggled pixel changes its cell and VF. -/
theorem togglePixel_eq (x : Fin 64) (y : Fin 32) (s : State) :
    togglePixel x y s = (s.setFb (s.fb.put x y (!s.fb.get x y))).setV flagReg (flagByte (s.fb.get x y)) := by
  simp [togglePixel, writePixel_toggle]

/-- Nothing but the registers and the framebuffer changes. -/
theorem toggleAll_frame (ps : List (Fin 64 × Fin 32)) (s : State) :
    toggleAll ps s = { s with v := (toggleAll ps s).v, fb := (toggleAll ps s).fb } := by
  induction ps generalizing s with
  | nil => rfl
  | cons p ps ih => exact ih (togglePixel p.1 p.2 s)

theorem toggleAll_byteAt (ps : List (Fin 64 × Fin 32)) (s : State) (a : Nat) :
    (toggleAll ps s).byteAt a = s.byteAt a := by rw [toggleAll_frame]; rfl

/-- Of the registers only VF changes. -/
theorem toggleAll_getV (ps : List (Fin 64 × Fin 32)) (s : State) {r : Reg} (h : r ≠ flagReg) :
    (toggleAll ps s).getV r = s.getV r := by
  induction ps generalizing s with
  | nil => rfl
  | cons p ps ih =>
    have h1 := ih (togglePixel p.1 p.2 s)
    simpa [togglePixel_eq, State.setV_getV, h, toggleAll] using h1

/-- A cell is flipped exactly when it is in the list (each cell once). -/
theorem toggleAll_fb (ps : List (Fin 64 × Fin 32)) (hps : ps.Nodup) (s : State) (x : Fin 64) (y : Fin 32) :
    (toggleAll ps s).fb.get x y = (s.fb.get x y ^^ decide ((x, y) ∈ ps)) := by
  induction ps generalizing s with
  | nil => simp
  | cons p ps ih =>
    have hp := List.nodup_cons.mp hps
    have h1 := ih hp.2 (togglePixel p.1 p.2 s)
    have h2 : toggleAll (p :: ps) s = toggleAll ps (togglePixel p.1 p.2 s) := rfl
    rw [h2, h1, togglePixel_eq]
    simp only [State.setV_fb, State.setFb_fb, Framebuffer.get_put, List.mem_cons]
    by_cases hxy : x = p.1 ∧ y = p.2
    · obtain ⟨rfl, rfl⟩ := hxy
      simp [hp.1]
    · have : ¬ (x, y) = p := fun e => hxy ⟨congrArg Prod.fst e, congrArg Prod.snd e⟩
      simp [hxy, this]

/-- VF ends as the collision of the last toggled cell, and keeps its value when there is none. -/
theorem toggleAll_flag (ps : List (Fin 64 × Fin 32)) (hps : ps.Nodup) (s : State) :
    (toggleAll ps s).getV flagReg =
      match ps.getLast? with
      | none => s.getV flagReg
      | some p => flagByte (s.fb.get p.1 p.2) := by
  rcases List.eq_nil_or_concat ps with rfl | ⟨qs, p, rfl⟩
  · simp
  · rw [List.concat_eq_append] at hps ⊢
    have hq : p ∉ qs := fun h => by
      have := (List.nodup_append.mp hps).2.2 p h p (by simp)
      exact this rfl
    have hn : qs.Nodup := (List.nodup_append.mp hps).1
    rw [toggleAll_append]
    have h1 : toggleAll [p] (toggleAll qs s) = togglePixel p.1 p.2 (toggleAll qs s) := rfl
    rw [h1, togglePixel_eq, State.setV_getV_same, toggleAll_fb qs hn]
    simp [hq]

/-! ### The cells of a sprite -/

/-- The cell sprite column `c` lands on, if its bit is set and it is not clipped (R224, R225). -/
def columnCell (x0 y : Nat) (b : Byte) (c : Nat) : Option (Fin 64 × Fin 32) :=
  if spriteBit b c then
    if hx : x0 + c < 64 then if hy : y < 32 then some (⟨x0 + c, hx⟩, ⟨y, hy⟩) else none else none
  else none

/-- The toggled cells of one sprite row, left to right. -/
def rowCells (x0 y : Nat) (b : Byte) : List (Fin 64 × Fin 32) := (List.range 8).filterMap (columnCell x0 y b)

/-- The toggled cells of a sprite, row by row. -/
def spriteCells (x0 : Nat) : Nat → List Byte → List (Fin 64 × Fin 32)
  | _, [] => []
  | y, b :: bs => rowCells x0 y b ++ spriteCells x0 (y + 1) bs

theorem drawBit_eq (x0 y : Nat) (b : Byte) (s : State) (c : Nat) :
    drawBit x0 y b s c = toggleAll (columnCell x0 y b c).toList s := by
  simp only [drawBit, columnCell]
  repeat' split
  all_goals rfl

theorem drawRow_eq (x0 y : Nat) (b : Byte) (s : State) : drawRow x0 y b s = toggleAll (rowCells x0 y b) s := by
  have h : ∀ (cs : List Nat) (t : State),
      cs.foldl (drawBit x0 y b) t = toggleAll (cs.filterMap (columnCell x0 y b)) t := by
    intro cs
    induction cs with
    | nil => intro t; rfl
    | cons c cs ih =>
      intro t
      rw [List.foldl_cons, ih, drawBit_eq]
      cases hc : columnCell x0 y b c <;> simp [hc, toggleAll]
  exact h (List.range 8) s

/-- The bytes at `n` addresses from `a` on. -/
def State.bytesAt (s : State) (a n : Nat) : List Byte := (List.range' a n).map s.byteAt

theorem State.bytesAt_succ (s : State) (a n : Nat) : s.bytesAt a (n + 1) = s.byteAt a :: s.bytesAt (a + 1) n := by
  simp [State.bytesAt, List.range'_succ]

@[simp] theorem State.bytesAt_length (s : State) (a n : Nat) : (s.bytesAt a n).length = n := by
  simp [State.bytesAt]

theorem State.bytesAt_get (s : State) (a n k : Nat) (h : k < (s.bytesAt a n).length) :
    (s.bytesAt a n)[k] = s.byteAt (a + k) := by
  simp [State.bytesAt]

theorem toggleAll_bytesAt (ps : List (Fin 64 × Fin 32)) (s : State) (a n : Nat) :
    (toggleAll ps s).bytesAt a n = s.bytesAt a n := by
  simp only [State.bytesAt]
  exact List.map_congr_left fun p _ => toggleAll_byteAt ps s p

/-- A sprite whose bytes all exist toggles its cells in order. -/
theorem drawRows_fits (x0 n y a : Nat) (s : State) (h : n = 0 ∨ a + n ≤ Config.memSize) :
    drawRows x0 n y a s = .done () (toggleAll (spriteCells x0 y (s.bytesAt a n)) s) := by
  induction n generalizing y a s with
  | zero => rfl
  | succ n ih =>
    rw [drawRows, memRead_inRange s (by omega), Flow.andThen_done, drawRow_eq, ih _ _ _ (by omega),
      toggleAll_bytesAt, State.bytesAt_succ, spriteCells, toggleAll_append]

/-- A sprite that runs past the end of memory toggles the cells of the rows whose bytes exist, then raises at the first
byte that does not. -/
theorem drawRows_overruns (x0 n y a : Nat) (s : State) (hn : n ≠ 0) (h : Config.memSize < a + n) :
    drawRows x0 n y a s = .raised (takeOutOfRange (max a Config.memSize)
      (toggleAll (spriteCells x0 y (s.bytesAt a (Config.memSize - a))) s)) := by
  induction n generalizing y a s with
  | zero => exact absurd rfl hn
  | succ n ih =>
    by_cases ha : a < Config.memSize
    · have h1 : Config.memSize - a = Config.memSize - (a + 1) + 1 := by omega
      have h2 : max (a + 1) Config.memSize = max a Config.memSize := by omega
      rw [drawRows, memRead_inRange s ha, Flow.andThen_done, drawRow_eq, ih _ _ _ (by omega) (by omega),
        toggleAll_bytesAt, h1, h2, State.bytesAt_succ, spriteCells, toggleAll_append]
    · have h1 : Config.memSize - a = 0 := by omega
      have h2 : max a Config.memSize = a := by omega
      rw [drawRows, memRead_outOfRange s (by omega), Flow.andThen_raised, h1, h2]
      rfl

/-- Whatever its addresses, a sprite draw changes VF and the framebuffer, and the latch and the trace when it raises;
nothing else. -/
theorem drawRows_frame (x0 n y a : Nat) (s : State) : ∃ ps f tr,
    (drawRows x0 n y a s).final = { toggleAll ps s with fault := f, trace := tr } ∧
      (f = s.fault ∨ f = some .memOutOfRange) := by
  by_cases h : n = 0 ∨ a + n ≤ Config.memSize
  · refine ⟨spriteCells x0 y (s.bytesAt a n), s.fault, s.trace, ?_, .inl rfl⟩
    rw [drawRows_fits _ _ _ _ _ h, Flow.final_done, toggleAll_frame]
  · refine ⟨spriteCells x0 y (s.bytesAt a (Config.memSize - a)), some .memOutOfRange,
      s.trace ++ [.outOfRange (max a Config.memSize)], ?_, .inr rfl⟩
    rw [drawRows_overruns _ _ _ _ _ (by omega) (by omega), Flow.final_raised, toggleAll_frame]
    rfl

theorem mem_columnCell {x0 y c : Nat} {b : Byte} {p : Fin 64 × Fin 32} :
    columnCell x0 y b c = some p ↔ spriteBit b c = true ∧ (p.1 : Nat) = x0 + c ∧ (p.2 : Nat) = y := by
  obtain ⟨px, py⟩ := p
  simp only [columnCell]
  split
  · split
    · split
      · rename_i hb hx hy
        rw [Option.some.injEq, Prod.mk.injEq, Fin.ext_iff, Fin.ext_iff]
        exact ⟨fun h => ⟨hb, h.1.symm, h.2.symm⟩, fun h => ⟨h.2.1.symm, h.2.2.symm⟩⟩
      · simp_all only [true_and, reduceCtorEq, false_iff, not_and]
        intro _ h
        have := py.isLt
        omega
    · simp_all only [true_and, reduceCtorEq, false_iff, not_and]
      intro h
      have := px.isLt
      omega
  · simp_all

/-- A cell is toggled by a row exactly when an unclipped set bit lands on it. -/
theorem mem_rowCells {x0 y : Nat} {b : Byte} {p : Fin 64 × Fin 32} :
    p ∈ rowCells x0 y b ↔
      (p.2 : Nat) = y ∧ x0 ≤ p.1 ∧ (p.1 : Nat) < x0 + 8 ∧ spriteBit b (p.1 - x0) = true := by
  simp only [rowCells, List.mem_filterMap, List.mem_range, mem_columnCell]
  constructor
  · rintro ⟨c, hc, hb, hx, hy⟩
    have h1 : (p.1 : Nat) - x0 = c := by omega
    exact ⟨hy, by omega, by omega, by rw [h1]; exact hb⟩
  · rintro ⟨hy, hlo, hhi, hb⟩
    exact ⟨p.1 - x0, by omega, hb, by omega, hy⟩

/-- A cell is toggled by a sprite exactly when an unclipped set bit of one of its rows lands on it. -/
theorem mem_spriteCells {x0 y : Nat} {bs : List Byte} {p : Fin 64 × Fin 32} :
    p ∈ spriteCells x0 y bs ↔ ∃ h : y ≤ p.2 ∧ (p.2 : Nat) < y + bs.length,
      x0 ≤ p.1 ∧ (p.1 : Nat) < x0 + 8 ∧ spriteBit (bs[(p.2 : Nat) - y]'(by omega)) (p.1 - x0) = true := by
  induction bs generalizing y with
  | nil => simp [spriteCells]
  | cons b bs ih =>
    simp only [spriteCells, List.mem_append, mem_rowCells, ih, List.length_cons]
    constructor
    · rintro (⟨hy, h⟩ | ⟨hr, h⟩)
      · have h0 : (p.2 : Nat) - y = 0 := by omega
        exact ⟨by omega, by simpa [h0] using h⟩
      · obtain ⟨k, hk⟩ : ∃ k, (p.2 : Nat) = y + 1 + k := ⟨p.2 - (y + 1), by omega⟩
        have h1 : (p.2 : Nat) - y = k + 1 := by omega
        have h2 : (p.2 : Nat) - (y + 1) = k := by omega
        simp only [h2] at h
        exact ⟨by omega, by simpa [h1] using h⟩
    · rintro ⟨hr, h⟩
      by_cases hy : (p.2 : Nat) = y
      · have h0 : (p.2 : Nat) - y = 0 := by omega
        simp only [h0, List.getElem_cons_zero] at h
        exact .inl ⟨hy, h⟩
      · obtain ⟨k, hk⟩ : ∃ k, (p.2 : Nat) = y + 1 + k := ⟨p.2 - (y + 1), by omega⟩
        have h1 : (p.2 : Nat) - y = k + 1 := by omega
        have h2 : (p.2 : Nat) - (y + 1) = k := by omega
        simp only [h1, List.getElem_cons_succ] at h
        exact .inr ⟨by omega, by simpa [h2] using h⟩

theorem rowCells_nodup (x0 y : Nat) (b : Byte) : (rowCells x0 y b).Nodup := by
  refine List.Nodup.filterMap ?_ List.nodup_range
  intro c d p hc hd
  rw [Option.mem_def, mem_columnCell] at hc hd
  omega

/-- No cell is toggled twice by one sprite. -/
theorem spriteCells_nodup (x0 y : Nat) (bs : List Byte) : (spriteCells x0 y bs).Nodup := by
  induction bs generalizing y with
  | nil => exact List.nodup_nil
  | cons b bs ih =>
    refine List.nodup_append.mpr ⟨rowCells_nodup x0 y b, ih (y + 1), ?_⟩
    rintro p hp q hq rfl
    rw [mem_rowCells] at hp
    rw [mem_spriteCells] at hq
    obtain ⟨hr, -⟩ := hq
    omega

/-- Row-major order of cells: rows top to bottom, inside a row left to right (R225). -/
def before (p q : Fin 64 × Fin 32) : Prop := p.2 < q.2 ∨ p.2 = q.2 ∧ p.1 < q.1

theorem rowCells_in_order (x0 y : Nat) (b : Byte) : (rowCells x0 y b).Pairwise before := by
  refine List.Pairwise.filterMap (R := (· < ·)) _ ?_ List.pairwise_lt_range
  intro c d hcd p hp q hq
  rw [mem_columnCell] at hp hq
  refine .inr ⟨Fin.ext (by omega), ?_⟩
  show (p.1 : Nat) < q.1
  omega

/-- A sprite toggles its cells in row-major order. -/
theorem spriteCells_in_order (x0 y : Nat) (bs : List Byte) : (spriteCells x0 y bs).Pairwise before := by
  induction bs generalizing y with
  | nil => exact List.Pairwise.nil
  | cons b bs ih =>
    refine List.pairwise_append.mpr ⟨rowCells_in_order x0 y b, ih (y + 1), ?_⟩
    intro p hp q hq
    rw [mem_rowCells] at hp
    rw [mem_spriteCells] at hq
    obtain ⟨hr, -⟩ := hq
    refine .inl ?_
    show (p.2 : Nat) < q.2
    omega

theorem before_irrefl (p : Fin 64 × Fin 32) : ¬ before p p := by
  rintro (h | ⟨-, h⟩) <;> exact absurd h (lt_irrefl _)

theorem before_asymm {p q : Fin 64 × Fin 32} (h : before p q) (h' : before q p) : False := by
  rcases h with h | ⟨e, h⟩ <;> rcases h' with h' | ⟨e', h'⟩
  · exact absurd h (lt_asymm h')
  · exact absurd h (e' ▸ lt_irrefl _)
  · exact absurd h' (e ▸ lt_irrefl _)
  · exact absurd h (lt_asymm h')

/-- Two lists in row-major order with the same cells are the same list. -/
theorem eq_of_in_order {ps qs : List (Fin 64 × Fin 32)} (hp : ps.Pairwise before) (hq : qs.Pairwise before)
    (h : ∀ c, c ∈ ps ↔ c ∈ qs) : ps = qs := by
  have nodup : ∀ {l : List (Fin 64 × Fin 32)}, l.Pairwise before → l.Nodup := fun hl =>
    List.Pairwise.imp (fun {a b} (hab : before a b) (e : a = b) => before_irrefl a (e.symm ▸ hab)) hl
  exact ((List.perm_ext_iff_of_nodup (nodup hp) (nodup hq)).mpr h).eq_of_pairwise
    (fun a b _ _ hab hba => (before_asymm hab hba).elim) hp hq

end Sys2Proof.Machine
end

