-- ==== Sys2Proof/Laws/PerInstr.lean ====
section
/-! SUPPORT. Facts proved one instruction at a time. Family `SelectsItsRow`: the word of an instruction selects the
instruction's row of the opcode table, `w & mask = match` (spec/30_encoding.md R101). -/

namespace Sys2Proof.Laws.SelectsItsRow

/-- The word of `i` selects the row of `i`. -/
def Statement (i : Instr) : Prop := encode i &&& i.row.mask = i.row.pattern

/-- A word of format `NNN`, `XNN` or `XYN` selects the row of its category. -/
theorem by_category {w p : Word} (c : Nibble) (hc : catOf w = c) (hp : formatXYN c 0 0 0 = p) : w &&& 0xF000 = p := by
  rw [and_maskNNN, hc, hp]

/-- A word of format `XYn` selects the row of its category and low nibble. -/
theorem by_low_nibble {w p : Word} (c n : Nibble) (hc : catOf w = c) (hn : nOf w = n) (hp : formatXYN c 0 0 n = p) :
    w &&& 0xF00F = p := by
  rw [and_maskXYn, hc, hn, hp]

/-- A word of format `Xnn` selects the row of its category and low byte. -/
theorem by_low_byte {w p : Word} (c : Nibble) (nn : Byte) (hc : catOf w = c) (hn : nnOf w = nn)
    (hp : formatXNN c 0 nn = p) : w &&& 0xF0FF = p := by
  rw [and_maskXnn, hc, hn, hp]

theorem clear : Statement .clear :=
  rfl

theorem ret : Statement .ret :=
  rfl

theorem jump (addr : Addr) : Statement (.jump addr) :=
  by_category _ (catOf_formatNNN ..) rfl

theorem call (addr : Addr) : Statement (.call addr) :=
  by_category _ (catOf_formatNNN ..) rfl

theorem skipEqVal (x : Reg) (nn : Byte) : Statement (.skipEqVal x nn) :=
  by_category _ (catOf_formatXNN ..) rfl

theorem skipNeVal (x : Reg) (nn : Byte) : Statement (.skipNeVal x nn) :=
  by_category _ (catOf_formatXNN ..) rfl

theorem skipEqReg (x : Reg) (y : Reg) : Statement (.skipEqReg x y) :=
  by_low_nibble _ _ (catOf_formatXYN ..) (nOf_formatXYN ..) rfl

theorem set (x : Reg) (nn : Byte) : Statement (.set x nn) :=
  by_category _ (catOf_formatXNN ..) rfl

theorem add (x : Reg) (nn : Byte) : Statement (.add x nn) :=
  by_category _ (catOf_formatXNN ..) rfl

theorem setReg (x : Reg) (y : Reg) : Statement (.setReg x y) :=
  by_low_nibble _ _ (catOf_formatXYN ..) (nOf_formatXYN ..) rfl

theorem or (x : Reg) (y : Reg) : Statement (.or x y) :=
  by_low_nibble _ _ (catOf_formatXYN ..) (nOf_formatXYN ..) rfl

theorem and (x : Reg) (y : Reg) : Statement (.and x y) :=
  by_low_nibble _ _ (catOf_formatXYN ..) (nOf_formatXYN ..) rfl

theorem xor (x : Reg) (y : Reg) : Statement (.xor x y) :=
  by_low_nibble _ _ (catOf_formatXYN ..) (nOf_formatXYN ..) rfl

theorem addReg (x : Reg) (y : Reg) : Statement (.addReg x y) :=
  by_low_nibble _ _ (catOf_formatXYN ..) (nOf_formatXYN ..) rfl

theorem sub1 (x : Reg) (y : Reg) : Statement (.sub1 x y) :=
  by_low_nibble _ _ (catOf_formatXYN ..) (nOf_formatXYN ..) rfl

theorem shr (x : Reg) (y : Reg) : Statement (.shr x y) :=
  by_low_nibble _ _ (catOf_formatXYN ..) (nOf_formatXYN ..) rfl

theorem sub2 (x : Reg) (y : Reg) : Statement (.sub2 x y) :=
  by_low_nibble _ _ (catOf_formatXYN ..) (nOf_formatXYN ..) rfl

theorem shl (x : Reg) (y : Reg) : Statement (.shl x y) :=
  by_low_nibble _ _ (catOf_formatXYN ..) (nOf_formatXYN ..) rfl

theorem skipNeReg (x : Reg) (y : Reg) : Statement (.skipNeReg x y) :=
  by_low_nibble _ _ (catOf_formatXYN ..) (nOf_formatXYN ..) rfl

theorem setIndex (addr : Addr) : Statement (.setIndex addr) :=
  by_category _ (catOf_formatNNN ..) rfl

theorem jumpOffset (addr : Addr) : Statement (.jumpOffset addr) :=
  by_category _ (catOf_formatNNN ..) rfl

theorem rand (x : Reg) (nn : Byte) : Statement (.rand x nn) :=
  by_category _ (catOf_formatXNN ..) rfl

theorem display (x : Reg) (y : Reg) (n : Nibble) : Statement (.display x y n) :=
  by_category _ (catOf_formatXYN ..) rfl

theorem skipIfKey (x : Reg) : Statement (.skipIfKey x) :=
  by_low_byte _ _ (catOf_formatXNN ..) (nnOf_formatXNN ..) rfl

theorem skipIfNotKey (x : Reg) : Statement (.skipIfNotKey x) :=
  by_low_byte _ _ (catOf_formatXNN ..) (nnOf_formatXNN ..) rfl

theorem getDelay (x : Reg) : Statement (.getDelay x) :=
  by_low_byte _ _ (catOf_formatXNN ..) (nnOf_formatXNN ..) rfl

theorem waitForKey (x : Reg) : Statement (.waitForKey x) :=
  by_low_byte _ _ (catOf_formatXNN ..) (nnOf_formatXNN ..) rfl

theorem setDelay (x : Reg) : Statement (.setDelay x) :=
  by_low_byte _ _ (catOf_formatXNN ..) (nnOf_formatXNN ..) rfl

theorem setSound (x : Reg) : Statement (.setSound x) :=
  by_low_byte _ _ (catOf_formatXNN ..) (nnOf_formatXNN ..) rfl

theorem addIndex (x : Reg) : Statement (.addIndex x) :=
  by_low_byte _ _ (catOf_formatXNN ..) (nnOf_formatXNN ..) rfl

theorem getFontChar (x : Reg) : Statement (.getFontChar x) :=
  by_low_byte _ _ (catOf_formatXNN ..) (nnOf_formatXNN ..) rfl

theorem binToDec (x : Reg) : Statement (.binToDec x) :=
  by_low_byte _ _ (catOf_formatXNN ..) (nnOf_formatXNN ..) rfl

theorem storeMem (x : Reg) : Statement (.storeMem x) :=
  by_low_byte _ _ (catOf_formatXNN ..) (nnOf_formatXNN ..) rfl

theorem loadMem (x : Reg) : Statement (.loadMem x) :=
  by_low_byte _ _ (catOf_formatXNN ..) (nnOf_formatXNN ..) rfl

end Sys2Proof.Laws.SelectsItsRow
end

