-- ==== Sys2Proof/Laws/Step.lean ====
section
/-! SUPPORT. What one step can do, said once; and the placing of an instruction for the next step. -/

namespace Sys2Proof.Machine

variable {s t : State}

@[simp] theorem advance_pc (s : State) : s.advance.pc = s.pc + 2 := rfl

theorem advance_eq (s : State) : s.advance = { s with pc := s.pc + 2, displayChanged := false } := rfl

theorem latchDirty_eq (s : State) : latchDirty s = { s with dirty := s.dirty || s.displayChanged } := by
  rcases s with ⟨_, _, _, _, _, _, _, _, d, _, c, _, _, _, _⟩
  cases c <;> simp [latchDirty, State.setDirty]

theorem presentIfDirty_eq (s : State) :
    presentIfDirty s = { s with
      dirty := false, trace := if s.dirty then s.trace ++ [.present s.fb] else s.trace } := by
  rcases s with ⟨_, _, _, _, _, _, _, _, d, _, _, _, _, _, _⟩
  cases d <;> simp [presentIfDirty, State.setDirty, State.emit]

/-- A timer tick: both timers count down, and a dirty buffer is presented. -/
theorem timerTick_eq (s : State) :
    timerTick s = { s with
      dt := countDown s.dt, st := countDown s.st, dirty := false,
      trace := if s.dirty then s.trace ++ [.present s.fb] else s.trace } := by
  rw [timerTick, presentIfDirty_eq]
  rfl

/-- `countDown` on numbers: one less, never below zero. -/
theorem countDown_toNat (b : Byte) : (countDown b).toNat = b.toNat - 1 := by
  revert b; decide

/-- Running a word that decodes to an instruction. -/
theorem runWord_ok {w : Word} {i : Instr} (h : decode w = .ok i) :
    runWord w s = finishInstruction (exec i s) := by simp [runWord, h]

theorem runWord_miss {w : Word} {e : Reject} (h : decode w = .error e) :
    runWord w s = .next (s.emit (.decodeMiss w)) := by simp [runWord, h]

theorem finishInstruction_next {o : Host.Outcome State Fault Refusal} :
    finishInstruction o = .next t ↔ ∃ u, o = .next u ∧ t = latchDirty u := by
  cases o <;> simp [finishInstruction, eq_comm]

theorem takeInput_next {o : Host.Outcome State Fault Refusal} :
    takeInput o = .next t ↔ ∃ u, o = .next u ∧ t = u.nextInput := by
  cases o <;> simp [takeInput, eq_comm]

/-- When the instruction agent is enabled its turn is an instruction step. -/
theorem instructionTurn_enabled (hl : s.loadError = false) (hf : s.fault = none) (hc : s.input.close = false) :
    instructionTurn s = instructionStep s := by simp [instructionTurn, hl, hf, hc]

/-- An instruction turn that answers a next state was an enabled one. -/
theorem instructionTurn_next (h : instructionTurn s = .next t) :
    s.loadError = false ∧ s.fault = none ∧ s.input.close = false ∧ instructionStep s = .next t := by
  simp only [instructionTurn] at h
  split at h
  · cases h
  · rename_i hl
    split at h
    · cases h
    · rename_i hf
      split at h
      · cases h
      · rename_i hc
        exact ⟨by simpa using hl, hf, by simpa using hc, h⟩

/-- Everything a step can do when it answers a next state. -/
theorem step_cases (h : step s = .next t) :
    (∃ image, s.input.turn = .reset image ∧ t = (resetTurn image s).nextInput) ∨
    (s.input.turn = .timer ∧ t = (timerTick s).nextInput) ∨
    (s.input.turn = .instruction ∧ s.loadError = false ∧ s.fault = none ∧ s.input.close = false ∧
      ((s.canFetch = false ∧ t = (takeOutOfRange s.pc.toNat s).nextInput) ∨
       (s.canFetch = true ∧ (∃ e, decode s.fetched = .error e) ∧
         t = (s.advance.emit (.decodeMiss s.fetched)).nextInput) ∨
       (s.canFetch = true ∧ ∃ i u, decode s.fetched = .ok i ∧ exec i s.advance = .next u ∧
         t = (latchDirty u).nextInput))) := by
  simp only [step, move] at h
  obtain ⟨u, hu, rfl⟩ := takeInput_next.mp h
  split at hu
  · rename_i hturn
    obtain ⟨hl, hf, hc, hstep⟩ := instructionTurn_next hu
    refine .inr (.inr ⟨hturn, hl, hf, hc, ?_⟩)
    simp only [instructionStep] at hstep
    split at hstep
    · rename_i hfetch
      cases hd : decode s.fetched with
      | error e =>
        rw [runWord_miss hd] at hstep
        cases hstep
        exact .inr (.inl ⟨hfetch, ⟨e, rfl⟩, rfl⟩)
      | ok i =>
        rw [runWord_ok hd] at hstep
        obtain ⟨u', hu', rfl⟩ := finishInstruction_next.mp hstep
        exact .inr (.inr ⟨hfetch, i, u', rfl, hu', rfl⟩)
    · rename_i hfetch
      cases hstep
      exact .inl ⟨by simpa using hfetch, rfl⟩
  · rename_i hturn
    cases hu
    exact .inr (.inl ⟨hturn, rfl⟩)
  · rename_i image hturn
    cases hu
    exact .inl ⟨image, hturn, rfl⟩

/-- What being at the end of a run says, and what it asks. -/
theorem atEnd_iff : s.atEnd = true ↔
    s.canFetch = true ∧ s.fault = none ∧ s.loadError = false ∧
      decode s.fetched = .ok (.jump (s.pc.setWidth 12)) := by
  cases hd : decode s.fetched <;> simp [State.atEnd, hd, and_assoc]

/-- A pc that can be fetched from is a 12-bit address. -/
theorem zextAddr_pc (h : s.canFetch = true) : zextAddr (s.pc.setWidth 12) = s.pc := by
  have h' : s.pc.toNat + 1 < 4096 := of_decide_eq_true h
  apply BitVec.eq_of_toNat_eq
  simp only [zextAddr, BitVec.toNat_setWidth]
  omega

/-- Memory right after a program load. -/
theorem boot_mem_fits {image : List Byte} (h : imageFits image = true) :
    (State.boot image).mem = (⟨[]⟩ : Memory).writeList Config.progBase image := by
  simp [State.boot, h, State.reset]

theorem boot_fits {image : List Byte} (h : imageFits image = true) :
    State.boot image = { State.reset with mem := (State.boot image).mem } := by
  simp [State.boot, h, State.setMem]

theorem boot_refused {image : List Byte} (h : imageFits image = false) :
    State.boot image = { State.reset with loadError := true } := by
  simp [State.boot, h]

/-- The memory a boot leaves has the canonical form. -/
theorem boot_wf (image : List Byte) : (State.boot image).mem.wf := by
  cases h : imageFits image
  · rw [boot_refused h]
    exact Memory.wf_empty
  · rw [boot_mem_fits h]
    refine Memory.wf_writeList image Memory.wf_empty _ ?_
    have h' : image.length ≤ 3584 := of_decide_eq_true h
    simp only [Config.progBase, Config.memSize]
    omega

end Sys2Proof.Machine
end

