-- ==== Sys2Proof/Tests/Slice0.lean ====
section
/-! SUPPORT. Small tests. Every expected value of a decode or step test is read off the encodings of
spec/30_encoding.md R101 or a vector of spec/95_test_vectors.md, whose name stands before the test. The witnesses at the
end show that the hypotheses of each statement can be met, at the edges of their ranges. -/

namespace Sys2Proof.Tests

open Sys2Proof.Machine Sys2Proof.Claims

/-! ### Well-formedness: what is refused -/

theorem test_image_one_byte_too_long_is_refused : imageFits (List.replicate 3585 0) = false := by
  simp only [imageFits, List.length_replicate]
  decide

theorem test_image_that_fills_the_region_is_accepted : imageFits (List.replicate 3584 0) = true := by
  simp only [imageFits, List.length_replicate]
  decide

theorem test_palette_of_one_colour_is_refused : (Palette.mk 0xFFFFFF 0xFFFFFF).wellFormed = false := by decide

theorem test_default_palette_is_accepted : Palette.default.wellFormed = true := by decide

/-! ### Decoding: words written out from the encodings of R101, every constructor -/

theorem test_decode_literal_words :
    decode 0b0000000011100000#16 = .ok .clear ∧ decode 0b0000000011101110#16 = .ok .ret := ⟨rfl, rfl⟩

theorem test_decode_control_flow :
    decode 0b0001_101010111100#16 = .ok (.jump 0xABC) ∧
    decode 0b0010_001100000001#16 = .ok (.call 0x301) ∧
    decode 0b0011_1010_01000010#16 = .ok (.skipEqVal 0xA 0x42) ∧
    decode 0b0100_1010_01000010#16 = .ok (.skipNeVal 0xA 0x42) ∧
    decode 0b0101_0001_0010_0000#16 = .ok (.skipEqReg 1 2) ∧
    decode 0b1001_0001_0010_0000#16 = .ok (.skipNeReg 1 2) ∧
    decode 0b1011_001011110000#16 = .ok (.jumpOffset 0x2F0) := ⟨rfl, rfl, rfl, rfl, rfl, rfl, rfl⟩

theorem test_decode_alu :
    decode 0b0110_1010_01111111#16 = .ok (.set 0xA 0x7F) ∧
    decode 0b0111_0000_11111111#16 = .ok (.add 0 0xFF) ∧
    decode 0b1000_0001_0010_0000#16 = .ok (.setReg 1 2) ∧
    decode 0b1000_0001_0010_0001#16 = .ok (.or 1 2) ∧
    decode 0b1000_0001_0010_0010#16 = .ok (.and 1 2) ∧
    decode 0b1000_0001_0010_0011#16 = .ok (.xor 1 2) ∧
    decode 0b1000_0001_0010_0100#16 = .ok (.addReg 1 2) ∧
    decode 0b1000_0001_0010_0101#16 = .ok (.sub1 1 2) ∧
    decode 0b1000_0001_0010_0110#16 = .ok (.shr 1 2) ∧
    decode 0b1000_0001_0010_0111#16 = .ok (.sub2 1 2) ∧
    decode 0b1000_0001_0010_1110#16 = .ok (.shl 1 2) ∧
    decode 0b1100_0011_00001111#16 = .ok (.rand 3 0x0F) :=
  ⟨rfl, rfl, rfl, rfl, rfl, rfl, rfl, rfl, rfl, rfl, rfl, rfl⟩

theorem test_decode_index_and_memory :
    decode 0b1010_000100100011#16 = .ok (.setIndex 0x123) ∧
    decode 0b1111_0010_00011110#16 = .ok (.addIndex 2) ∧
    decode 0b1111_0001_00101001#16 = .ok (.getFontChar 1) ∧
    decode 0b1111_0100_00110011#16 = .ok (.binToDec 4) ∧
    decode 0b1111_0010_01010101#16 = .ok (.storeMem 2) ∧
    decode 0b1111_0011_01100101#16 = .ok (.loadMem 3) := ⟨rfl, rfl, rfl, rfl, rfl, rfl⟩

theorem test_decode_display_keys_timers :
    decode 0b1101_0001_0010_0101#16 = .ok (.display 1 2 5) ∧
    decode 0b1110_0101_10011110#16 = .ok (.skipIfKey 5) ∧
    decode 0b1110_1111_10100001#16 = .ok (.skipIfNotKey 0xF) ∧
    decode 0b1111_0001_00000111#16 = .ok (.getDelay 1) ∧
    decode 0b1111_0010_00001010#16 = .ok (.waitForKey 2) ∧
    decode 0b1111_0001_00010101#16 = .ok (.setDelay 1) ∧
    decode 0b1111_0100_00011000#16 = .ok (.setSound 4) := ⟨rfl, rfl, rfl, rfl, rfl, rfl, rfl⟩

/-- The decoder reports the word itself as a miss. -/
def isMiss (w : Word) : Bool :=
  match decode w with
  | .error e => e == .miss w
  | .ok _ => false

/-- E1, E3, E5 to E8, E10. -/
theorem test_decode_misses :
    ([0x0000, 0x00E1, 0x0123, 0x01E0, 0x5AB1, 0x8AB8, 0x8ABD, 0x8ABF, 0x9AB8, 0xE19F, 0xEFFF, 0xF01F, 0xF085,
      0xFFFF] : List Word).all isMiss = true := by decide

/-- The host's numbering of bits: bit 0 is the lowest bit of the one word. -/
theorem test_table_word : decodeTableWord 16 0x6A7F = some (.set 0xA 0x7F) ∧ decodeTableWord 16 0x5AB1 = none :=
  ⟨rfl, rfl⟩

/-! ### One step -/

/-- An input for the instruction agent with these keys down, this key picked and this random byte. -/
def input (keys : BitVec 16) (pick : Reg) (rand : Byte) : Input := ⟨.instruction, keys, pick, rand, false⟩

/-- The instruction agent moves, no key is down. -/
def quiet : Input := input 0 0 0

/-- The timer agent moves. -/
def tick : Input := { quiet with turn := .timer }

/-- The reset state with these registers and the instruction agent next to move. -/
def start (regs : List (Reg × Byte)) : State :=
  regs.foldl (fun s r => s.setV r.1 r.2) { State.reset with feed := [quiet] }

/-- The next state, if the outcome is one. -/
def nextOf (o : Host.Outcome State Fault Refusal) : Option State :=
  match o with
  | .next t => some t
  | .fault _ => none
  | .refused _ => none

theorem exists_next {o : Host.Outcome State Fault Refusal} (h : (nextOf o).isSome = true) : ∃ t, o = .next t := by
  cases o with
  | next t => exact ⟨t, rfl⟩
  | fault => cases h
  | refused => cases h

/-- What one step on the word `w`, placed at the pc, leaves. -/
def after (w : Nat) (s : State) : Option State := nextOf (step (s.withFetchWord 16 w))

/-- CF2. -/
theorem test_return : (after 0x00EE { start [] with pc := 0x300, stack := [0x0202, 0x0ABC] }).map
    (fun t => (t.pc, t.stack, t.fault)) = some (0x0ABC, [0x0202], none) := by decide

/-- CF3. -/
theorem test_return_underflow : (after 0x00EE (start [])).map (fun t => (t.pc, t.stack, t.fault)) =
    some (0x0202, [], some .stackUnderflow) := by decide

/-- CF4. -/
theorem test_jump : (after 0x1ABC (start [])).map (fun t => (t.pc, t.stack)) = some (0x0ABC, []) := by decide

/-- CF8: the sixteenth entry fits. -/
theorem test_call : (after 0x2300 { start [] with pc := 0x2FE, stack := List.replicate 15 0x0202 }).map
    (fun t => (t.pc, t.stack, t.fault)) = some (0x0300, List.replicate 15 0x0202 ++ [0x0300], none) := by decide

/-- CF9. -/
theorem test_call_overflow : (after 0x2300 { start [] with stack := List.replicate 16 0x0202 }).map
    (fun t => (t.pc, t.stack, t.fault)) =
      some (0x0202, List.replicate 16 0x0202, some .stackOverflow) := by decide

/-- CF10, CF11. -/
theorem test_skip_eq_val : (after 0x3A42 (start [(0xA, 0x42)])).map State.pc = some 0x0204 ∧
    (after 0x3A42 (start [(0xA, 0x43)])).map State.pc = some 0x0202 := by decide

/-- CF12, CF13. -/
theorem test_skip_ne_val : (after 0x4A42 (start [(0xA, 0x42)])).map State.pc = some 0x0202 ∧
    (after 0x4A42 (start [(0xA, 0x43)])).map State.pc = some 0x0204 := by decide

/-- CF14, CF15. -/
theorem test_skip_eq_reg : (after 0x5120 (start [(1, 7), (2, 7)])).map State.pc = some 0x0204 ∧
    (after 0x5120 (start [(1, 7), (2, 8)])).map State.pc = some 0x0202 := by decide

/-- CF17, CF18. -/
theorem test_skip_ne_reg : (after 0x9120 (start [(1, 7), (2, 7)])).map State.pc = some 0x0202 ∧
    (after 0x9120 (start [(1, 7), (2, 8)])).map State.pc = some 0x0204 := by decide

/-- CF22, CF23. -/
theorem test_jump_offset : (after 0xB300 (start [(0, 0x10), (3, 0x55)])).map State.pc = some 0x0310 ∧
    (after 0xBFFF (start [(0, 0xFF)])).map State.pc = some 0x10FE := by decide

/-- A1, A2. -/
theorem test_set : (after 0x6A7F (start [])).map (fun t => (t.getV 0xA, t.pc)) = some (0x7F, 0x0202) ∧
    (after 0x6F55 (start [])).map (fun t => t.getV 0xF) = some 0x55 := by decide

/-- A3. -/
theorem test_add : (after 0x7001 (start [(0, 0xFF), (0xF, 0x33)])).map (fun t => (t.getV 0, t.getV 0xF)) =
    some (0x00, 0x33) := by decide

/-- A6. -/
theorem test_set_reg : (after 0x8120 (start [(1, 0x01), (2, 0x99)])).map (fun t => (t.getV 1, t.getV 2)) =
    some (0x99, 0x99) := by decide

/-- A7. -/
theorem test_or : (after 0x8121 (start [(1, 0xF0), (2, 0x0F), (0xF, 0x77)])).map (fun t => (t.getV 1, t.getV 0xF)) =
    some (0xFF, 0x77) := by decide

/-- A8. -/
theorem test_and : (after 0x8122 (start [(1, 0xF0), (2, 0x3C), (0xF, 0x77)])).map (fun t => (t.getV 1, t.getV 0xF)) =
    some (0x30, 0x77) := by decide

/-- A9. -/
theorem test_xor : (after 0x8123 (start [(1, 0xF0), (2, 0x3C), (0xF, 0x77)])).map (fun t => (t.getV 1, t.getV 0xF)) =
    some (0xCC, 0x77) := by decide

/-- A11, A12. -/
theorem test_add_reg : (after 0x8014 (start [(0, 0xFF), (1, 0x01)])).map (fun t => (t.getV 0, t.getV 0xF)) =
      some (0x00, 0x01) ∧
    (after 0x8014 (start [(0, 0x10), (1, 0x20), (0xF, 1)])).map (fun t => (t.getV 0, t.getV 0xF)) =
      some (0x30, 0x00) := by decide

/-- A15, A17: VF as destination and as source. -/
theorem test_add_reg_with_vf : (after 0x8F14 (start [(0xF, 0xF0), (1, 0x20)])).map (fun t => t.getV 0xF) =
      some 0x01 ∧
    (after 0x81F4 (start [(1, 0x03), (0xF, 0x02)])).map (fun t => (t.getV 1, t.getV 0xF)) = some (0x05, 0x00) := by
  decide

/-- A18, A20. -/
theorem test_sub1 : (after 0x8015 (start [(0, 0x05), (1, 0x0A)])).map (fun t => (t.getV 0, t.getV 0xF)) =
      some (0xFB, 0x00) ∧
    (after 0x8015 (start [(0, 0x07), (1, 0x07)])).map (fun t => (t.getV 0, t.getV 0xF)) = some (0x00, 0x01) := by
  decide

/-- A27, A30. -/
theorem test_shr : (after 0x8126 (start [(1, 0xFF), (2, 0x05)])).map (fun t => (t.getV 1, t.getV 2, t.getV 0xF)) =
      some (0x02, 0x05, 0x01) ∧
    (after 0x8F26 (start [(2, 0x02)])).map (fun t => t.getV 0xF) = some 0x00 := by decide

/-- A23, A24. -/
theorem test_sub2 : (after 0x8017 (start [(0, 0x05), (1, 0x0A)])).map (fun t => (t.getV 0, t.getV 0xF)) =
      some (0x05, 0x01) ∧
    (after 0x8017 (start [(0, 0x0A), (1, 0x05)])).map (fun t => (t.getV 0, t.getV 0xF)) = some (0xFB, 0x00) := by
  decide

/-- A33, A36. -/
theorem test_shl : (after 0x812E (start [(1, 0xFF), (2, 0x81)])).map (fun t => (t.getV 1, t.getV 2, t.getV 0xF)) =
      some (0x02, 0x81, 0x01) ∧
    (after 0x8F2E (start [(2, 0x40)])).map (fun t => t.getV 0xF) = some 0x00 := by decide

/-- A38, A40. -/
theorem test_rand : (after 0xC10F { start [] with feed := [input 0 0 0xA7] }).map (fun t => t.getV 1) = some 0x07 ∧
    (after 0xC1FF { start [] with feed := [input 0 0 0xA7] }).map (fun t => t.getV 1) = some 0xA7 := by decide

/-- M1. -/
theorem test_set_index : (after 0xA123 (start [])).map State.index = some 0x0123 := by decide

/-- M5. -/
theorem test_add_index : (after 0xF01E { start [(0, 0x02)] with index := 0xFFFF }).map
    (fun t => (t.index, t.getV 0xF)) = some (0x0001, 0x00) := by decide

/-- M7, M10. -/
theorem test_get_font_char : (after 0xF129 (start [(1, 0x03)])).map State.index = some 0x005F ∧
    (after 0xF029 (start [(0, 0xFF)])).map State.index = some 0x054B := by decide

/-- M11. -/
theorem test_bin_to_dec : (after 0xF033 { start [(0, 0xFE)] with index := 0x300 }).map
    (fun t => (t.byteAt 0x300, t.byteAt 0x301, t.byteAt 0x302, t.index)) = some (2, 5, 4, 0x300) := by decide

/-- M14. -/
theorem test_bin_to_dec_past_the_end : (after 0xF033 { start [(0, 0x80)] with index := 0xFFE }).map
    (fun t => (t.byteAt 0xFFE, t.byteAt 0xFFF, t.fault, t.pc, t.trace)) =
      some (1, 2, some .memOutOfRange, 0x0202, [.outOfRange 0x1000]) := by decide

/-- M16. -/
theorem test_store_mem : (after 0xF255 { start [(0, 0x11), (1, 0x22), (2, 0x33), (3, 0x44)] with index := 0x400 }).map
    (fun t => (t.byteAt 0x400, t.byteAt 0x402, t.byteAt 0x403, t.index)) = some (0x11, 0x33, 0x00, 0x400) := by decide

/-- M18. -/
theorem test_store_mem_past_the_end : (after 0xF155 { start [(0, 0xAA), (1, 0xBB)] with index := 0xFFF }).map
    (fun t => (t.byteAt 0xFFF, t.fault)) = some (0xAA, some .memOutOfRange) := by decide

/-- M21. -/
theorem test_load_mem : (after 0xF265 { start [] with
      index := 0x400, mem := ⟨[(0x400, 1), (0x401, 2), (0x402, 3), (0x403, 4)]⟩ }).map
    (fun t => (t.getV 0, t.getV 2, t.getV 3, t.index)) = some (1, 3, 0, 0x400) := by decide

/-- M22. -/
theorem test_load_mem_past_the_end : (after 0xF165 { start [(1, 0x77)] with
      index := 0xFFF, mem := ⟨[(0xFFF, 0x5A)]⟩ }).map
    (fun t => (t.getV 0, t.getV 1, t.fault)) = some (0x5A, 0x77, some .memOutOfRange) := by decide

/-- DS1. -/
theorem test_clear : (after 0x00E0 { start [] with fb := Framebuffer.blank.put 63 31 true }).map
    (fun t => (t.fb.get 63 31, t.displayChanged, t.dirty)) = some (false, true, true) := by decide

/-- DS11: the last toggled pixel decides VF. -/
theorem test_display : (after 0xD011 { start [] with
      index := 0x300, mem := ⟨[(0x300, 0xC0)]⟩, fb := Framebuffer.blank.put 0 0 true }).map
    (fun t => (t.fb.get 0 0, t.fb.get 1 0, t.getV 0xF, t.displayChanged)) = some (false, true, 0x00, true) := by decide

/-- DS13. -/
theorem test_display_past_the_end : (after 0xD012 { start [] with
      index := 0xFFF, mem := ⟨[(0xFFF, 0x80)]⟩ }).map
    (fun t => (t.fb.get 0 0, t.getV 0xF, t.fault, t.pc, t.displayChanged)) =
      some (true, 0x00, some .memOutOfRange, 0x0202, false) := by decide

/-- K1, K3. -/
theorem test_skip_if_key : (after 0xE19E { start [(1, 0x05)] with feed := [input 0x0020 0 0] }).map State.pc =
      some 0x0204 ∧
    (after 0xE19E { start [(1, 0x15)] with feed := [input 0xFFFF 0 0] }).map State.pc = some 0x0202 := by decide

/-- K4, K6. -/
theorem test_skip_if_not_key : (after 0xE1A1 { start [(1, 0x05)] with feed := [input 0x0020 0 0] }).map State.pc =
      some 0x0202 ∧
    (after 0xE1A1 { start [(1, 0x15)] with feed := [input 0xFFFF 0 0] }).map State.pc = some 0x0204 := by decide

/-- K7, K9. -/
theorem test_wait_for_key : (after 0xF20A (start [(2, 0x44)])).map (fun t => (t.pc, t.getV 2)) =
      some (0x0200, 0x44) ∧
    (after 0xF20A { start [] with feed := [input 0x0800 0xB 0] }).map (fun t => (t.pc, t.getV 2)) =
      some (0x0202, 0x0B) := by decide

/-- K10. -/
theorem test_get_delay : (after 0xF107 { start [] with dt := 0x2A }).map (fun t => (t.getV 1, t.dt)) =
    some (0x2A, 0x2A) := by decide

/-- K11. -/
theorem test_set_delay : (after 0xF115 (start [(1, 0x3C)])).map (fun t => (t.dt, t.st)) = some (0x3C, 0) := by decide

/-- K13. -/
theorem test_set_sound : (after 0xF118 (start [(1, 0x05)])).map (fun t => (t.st, t.dt)) = some (0x05, 0) := by decide

/-- S11. -/
theorem test_decode_miss : (after 0x0123 (start [])).map (fun t => (t.pc, t.trace, t.fault)) =
    some (0x0202, [.decodeMiss 0x0123], none) := by decide

/-- K14, K16: one timer tick. -/
theorem test_timer_tick :
    let t := timerTick { State.reset with dt := 2, st := 1, dirty := true }
    (t.dt, t.st, t.dirty, t.trace.length, t.pc) = (1, 0, false, 1, 0x0200) := by decide

/-! ### Witnesses: the hypotheses of each statement are met, at the edges of their ranges -/

/-- A state whose next move runs the word 0x1200 at the last address a fetch accepts (X1). -/
def lastWord : State := { State.reset with pc := 0xFFE, mem := ⟨[(0xFFE, 0x12)]⟩, feed := [quiet] }

/-- A state whose next move runs `WaitForKey V2` with no key down. -/
def waiting : State := { State.reset with mem := ⟨[(0x200, 0xF2), (0x201, 0x0A)]⟩, feed := [quiet] }

/-- A state whose next move is a reset with this program image. -/
def resetting (image : List Byte) : State := { State.reset with feed := [{ quiet with turn := .reset image }] }

theorem resetting_turn (image : List Byte) : (resetting image).input.turn = .reset image := rfl

/-- A state about to draw one byte at `index`, its fields in range or not as `index` says. -/
def drawing (index : Word) : State := { State.reset with index := index, mem := ⟨[(0xFFF, 0x80)]⟩ }

theorem witness_EncodeOfDecodeIsTheWord : decode 0x1204 = .ok (.jump 0x204) := rfl

theorem witness_DecodeFollowsTheOpcodeTable :
    (Instr.jump 0).row ∈ opcodeTable ∧ (0x1204 : Word) &&& (Instr.jump 0).row.mask = (Instr.jump 0).row.pattern ∧
    ∀ r ∈ opcodeTable, (0x0000 : Word) &&& r.mask ≠ r.pattern := by decide

theorem witness_Fetches : Fetches lastWord ∧ lastWord.pc.toNat + 1 = 4095 := ⟨⟨rfl, rfl, rfl, rfl, by decide⟩, rfl⟩

theorem witness_StepRunsTheDecodedInstruction : Fetches lastWord ∧ decode (wordAtPc lastWord) = .ok (.jump 0x200) :=
  ⟨witness_Fetches.1, rfl⟩

theorem witness_DecodeMissIsReportedAndSkipped :
    Fetches (start []) ∧ decode (wordAtPc (start [])) = .error (.miss 0x0000) :=
  ⟨⟨rfl, rfl, rfl, rfl, by decide⟩, rfl⟩

/-- X2. -/
theorem witness_FetchOutOfRangeLatchesTheFault :
    let s : State := { State.reset with pc := 0xFFF, feed := [quiet] }
    s.input.turn = .instruction ∧ s.input.close = false ∧ s.fault = none ∧ s.loadError = false ∧
      4096 = s.pc.toNat + 1 := ⟨rfl, rfl, rfl, rfl, rfl⟩

theorem witness_InstructionTurnStopsWhenNotEnabled :
    let refused : State := { State.reset with loadError := true, feed := [quiet] }
    let halted : State := { State.reset with fault := some .stackOverflow, feed := [quiet] }
    let closing : State := { State.reset with feed := [{ quiet with close := true }] }
    (refused.input.turn = .instruction ∧ refused.loadError = true) ∧
    (halted.input.turn = .instruction ∧ halted.loadError = false ∧ halted.fault = some .stackOverflow) ∧
    (closing.input.turn = .instruction ∧ closing.loadError = false ∧ closing.fault = none ∧ closing.input.close = true) :=
  ⟨⟨rfl, rfl⟩, ⟨rfl, rfl, rfl⟩, rfl, rfl, rfl, rfl⟩

theorem witness_OnlyResetClearsTheFaultLatch :
    let ticking : State := { State.reset with fault := some .memOutOfRange, feed := [tick] }
    let restarting : State := { resetting [] with fault := some .memOutOfRange }
    (ticking.fault = some .memOutOfRange ∧ ∃ t, step ticking = .next t) ∧
    (restarting.fault = some .memOutOfRange ∧ ∃ t, step restarting = .next t) :=
  ⟨⟨rfl, _, rfl⟩, rfl, _, rfl⟩

theorem witness_TimerTickCountsDownAndPresents :
    ({ State.reset with dt := 1, dirty := true, feed := [tick] } : State).input.turn = .timer := rfl

theorem witness_TimersReachZeroAfterEnoughTicks :
    (∀ f ∈ [tick, tick], f.turn = .timer) ∧
      ({ State.reset with dt := 1, feed := [tick, tick] } : State).feed = [tick, tick] ++ [] :=
  ⟨by simp [tick], rfl⟩

theorem witness_ResetStateIsAsSpecified :
    State.reset.byteAt 0x4F = 0 ∧ State.reset.byteAt 0x50 = 0xF0 ∧ State.reset.byteAt 0x9F = 0x80 ∧
      State.reset.byteAt 0xA0 = 0 := by decide

/-- X9: an image that fills the program region. -/
theorem witness_ResetLoadsTheImageAndStartsANewRun :
    (resetting (List.replicate 3584 0x12)).input.turn = .reset (List.replicate 3584 0x12) ∧
      (List.replicate 3584 (0x12 : Byte)).length = 3584 := ⟨resetting_turn _, List.length_replicate⟩

/-- X8: one byte more. -/
theorem witness_OversizeImageIsRefused :
    (resetting (List.replicate 3585 0x12)).input.turn = .reset (List.replicate 3585 0x12) ∧
      3584 < (List.replicate 3585 (0x12 : Byte)).length ∧
      ({ State.reset with loadError := true, feed := [quiet] } : State).input.turn = .instruction :=
  ⟨resetting_turn _, by rw [List.length_replicate]; decide, rfl⟩

/-- X1. -/
theorem test_fetch_at_the_last_word : (nextOf (step lastWord)).map (fun t => (t.pc, t.fault)) = some (0x0200, none) := rfl

theorem lastWord_steps : (nextOf (step lastWord)).isSome = true := rfl

theorem witness_EveryStepKeepsTheInvariant : lastWord.Inv ∧ ∃ t, step lastWord = .next t :=
  ⟨⟨by decide, by decide, by simp [lastWord, State.reset], by decide⟩, exists_next lastWord_steps⟩

/-- CF6. -/
theorem witness_JumpLoadsThePc : decode 0x1FFF = .ok (.jump 0xFFF) := rfl

/-- CF23, and the least sum no fetch accepts. -/
theorem witness_JumpOffsetAddsV0 :
    0xFFF ≤ (0xFFF : Addr).toNat + ((start [(0, 0xFF)]).getV 0).toNat ∧
      0xFFF = (0xFFE : Addr).toNat + ((start [(0, 1)]).getV 0).toNat := by decide

theorem witness_CallPushesAndJumpsOrOverflows :
    ({ State.reset with stack := List.replicate 15 0x202 } : State).stack.length < 16 ∧
      ({ State.reset with stack := List.replicate 16 0x202 } : State).stack.length = 16 := by decide

theorem witness_ReturnPopsOrUnderflows :
    ({ State.reset with stack := [0x202] } : State).stack = [] ++ [0x202] ∧ State.reset.stack = [] := ⟨rfl, rfl⟩

theorem witness_ReturnUndoesTheCall :
    let s : State := { State.reset with stack := List.replicate 15 0x202 }
    s.stack.length < 16 ∧ ∃ t, exec (.call 0x300) s = .next t := ⟨by decide, _, rfl⟩

theorem witness_StackOperationsObeyTheirLaws :
    ({ State.reset with stack := List.replicate 15 0x202 } : State).stack.length < 16 ∧
      ({ State.reset with stack := List.replicate 16 0x202 } : State).stack.length = 16 ∧
      State.reset.stack = [] ∧ (List.replicate 16 (0x202 : Word)).length = 16 := by decide

/-- Both outcomes of each condition. -/
theorem witness_CompareSkipsSkipOnTheirCondition :
    State.reset.getV 1 = 0 ∧ State.reset.getV 1 ≠ 5 ∧ State.reset.getV 1 = State.reset.getV 2 ∧
      (start [(1, 7)]).getV 1 ≠ (start [(1, 7)]).getV 2 := by decide

theorem witness_FlagWritingAluResults : (14 : Reg) ≠ 15 := by decide

theorem witness_RandMasksTheDraw :
    (∃ t, exec (.rand 1 0x0F) (start []) = .next t) ∧ (0x07 : Byte) &&& ~~~0x0F = 0 := ⟨⟨_, rfl⟩, rfl⟩

theorem witness_MemoryPrimitivesReadAndWriteOneByte :
    memRead 4095 (start []) = .done 0 (start []) ∧
      memRead 4096 (start []) = .raised (takeOutOfRange 4096 (start [])) := ⟨rfl, rfl⟩

/-- The three stores in range up to the last byte, and one, two and three of them out of range. -/
theorem witness_BinToDecStoresTheDigits :
    (drawing 0xFFD).base + 3 = 4096 ∧ (drawing 0xFFE).base + 1 < 4096 ∧ 4096 < (drawing 0xFFE).base + 3 ∧
      (drawing 0xFFF).base < 4096 ∧ 4096 < (drawing 0xFFF).base + 3 ∧ (drawing 0x1000).base = 4096 := by decide

theorem witness_StoreMemStoresV0ToVX :
    (drawing 0xFF0).base + (15 : Reg) = 4095 ∧ (drawing 0xFF1).base + (15 : Reg) = 4096 ∧
      (14 : Reg) ≤ 15 ∧ (drawing 0xFF1).base + (14 : Reg) < 4096 := by decide

theorem witness_LoadMemLoadsV0ToVX :
    (drawing 0xFFF).base + (0 : Reg) = 4095 ∧ (drawing 0xFFF).base + (1 : Reg) = 4096 ∧ (0 : Reg) < 1 := by decide

theorem witness_LoadMemRestoresWhatStoreMemSaved :
    ∃ t w, (drawing 0xFFE).base + (1 : Reg) < 4096 ∧ exec (.storeMem 1) (drawing 0xFFE) = .next t ∧
      t.mem = t.mem ∧ t.index = (drawing 0xFFE).index ∧ exec (.loadMem 1) t = .next w :=
  ⟨_, _, by decide, rfl, rfl, rfl, rfl⟩

theorem witness_WritePixelContract : ((63, 0) : Fin 64 × Fin 32) ≠ (0, 31) := by decide

theorem witness_ClearDisplayClearsEveryCell :
    ∀ (x : Fin 64) (y : Fin 32), (x, y) ∈ (List.finRange 64).product (List.finRange 32) := by
  simp [List.product]

/-- A height of 0 with `I` past the end (DS9), and a sprite whose last byte is the last of memory. -/
theorem witness_DisplayFlipsExactlyTheSprite :
    ((0 : Nibble) = 0 ∧ (drawing 0x1000).base = 4096) ∧ (drawing 0xFFF).base + (1 : Nibble).toNat = 4096 := by decide

/-- No cell toggled, and one. -/
theorem witness_DisplayLeavesTheLastCollisionInVF :
    toggledCells (drawing 0xFFE) 0 1 (1 : Nibble).toNat = [] ∧
      toggledCells (drawing 0xFFF) 0 1 (1 : Nibble).toNat = [] ++ [(0, 0)] ∧
      (∃ t, exec (.display 0 1 1) (drawing 0xFFE) = .next t) ∧ ∃ t, exec (.display 0 1 1) (drawing 0xFFF) = .next t :=
  ⟨by decide, by decide, ⟨_, rfl⟩, _, rfl⟩

/-- DS13: one cell toggled before the fault, and none. -/
theorem witness_DisplayPastTheEndOfMemoryFaults :
    ((2 : Nibble) ≠ 0 ∧ 4096 < (drawing 0xFFF).base + (2 : Nibble).toNat ∧
      toggledCells (drawing 0xFFF) 0 1 (4096 - (drawing 0xFFF).base) = [] ++ [(0, 0)]) ∧
    ((1 : Nibble) ≠ 0 ∧ 4096 < (drawing 0x1000).base + (1 : Nibble).toNat ∧
      toggledCells (drawing 0x1000) 0 1 (4096 - (drawing 0x1000).base) = []) :=
  ⟨⟨by decide, by decide, by decide⟩, by decide, by decide, by decide⟩

theorem witness_DrawingTwiceRestoresTheFramebuffer :
    ∃ t u, (drawing 0xFFF).base + (1 : Nibble).toNat ≤ 4096 ∧ exec (.display 0 1 1) (drawing 0xFFF) = .next t ∧
      t.getV 0 = (drawing 0xFFF).getV 0 ∧ t.getV 1 = (drawing 0xFFF).getV 1 ∧
      exec (.display 0 1 1) t = .next u ∧
      covered (drawing 0xFFF) 0 1 (1 : Nibble).toNat 0 0 = true ∧
      ∀ cx cy, (drawing 0xFFF).fb.get cx cy = false :=
  ⟨_, _, by decide, rfl, by decide, by decide, rfl, by decide, Framebuffer.get_blank⟩

/-- Both outcomes, at the last key and at the first value that is no key. -/
theorem witness_KeySkipsPollTheNamedKey :
    let s : State := { start [(1, 15), (2, 16)] with feed := [input 0xFFFF 0 0] }
    ((s.getV 1).toNat ≤ 15 ∧ s.input.keyDown.getLsbD (s.getV 1).toNat = true) ∧ ¬ (s.getV 2).toNat ≤ 15 := by decide

theorem witness_AnyKeyNamesAPressedKey :
    (start []).anyKey = none ∧ ({ start [] with feed := [input 0x8001 0xF 0] } : State).anyKey = some 0xF ∧
      ({ start [] with feed := [input 0x8001 3 0] } : State).anyKey = some 0 := by decide

theorem witness_WaitForKeyStoresOrRewinds :
    (start []).anyKey = none ∧ ({ start [] with feed := [input 0x0800 0xB 0] } : State).anyKey = some 0xB := by decide

theorem witness_WaitForKeyStepStaysInPlace :
    Fetches waiting ∧ decode (wordAtPc waiting) = .ok (.waitForKey 2) ∧ waiting.input.keyDown = 0 :=
  ⟨⟨rfl, rfl, rfl, rfl, by decide⟩, rfl, rfl⟩

theorem witness_StackIndexAndTimersHaveTheirWriters :
    (∃ t, exec (.call 0x300) (start []) = .next t ∧ t.stack ≠ (start []).stack) ∧
    (∃ t, exec (.setIndex 0x300) (start []) = .next t ∧ t.index ≠ (start []).index) ∧
    (∃ t, exec (.setDelay 1) (start [(1, 5)]) = .next t ∧ t.dt ≠ (start [(1, 5)]).dt) ∧
    (∃ t, exec (.setSound 1) (start [(1, 5)]) = .next t ∧ t.st ≠ (start [(1, 5)]).st) :=
  ⟨⟨_, rfl, by decide⟩, ⟨_, rfl, by decide⟩, ⟨_, rfl, by decide⟩, _, rfl, by decide⟩

theorem witness_MemoryAndFramebufferHaveTheirWriters :
    (∃ t, exec (.storeMem 1) { start [(1, 5)] with index := 0x300 } = .next t ∧ t.byteAt 0x301 ≠ (start []).byteAt 0x301) ∧
    (∃ t, exec (.display 0 1 1) (drawing 0xFFF) = .next t ∧ t.fb.get 0 0 ≠ (drawing 0xFFF).fb.get 0 0) ∧
    (∃ t, exec .clear (start []) = .next t ∧ t.displayChanged ≠ (start []).displayChanged) :=
  ⟨⟨_, rfl, by decide⟩, ⟨_, rfl, by decide⟩, _, rfl, by decide⟩

theorem witness_GeneralRegistersHaveTheirWriters :
    ∃ t, exec (.set 1 5) (start []) = .next t ∧ t.getV 1 ≠ (start []).getV 1 := ⟨_, rfl, by decide⟩

theorem witness_FaultsAreRaisedByTheseInstructionsOnly :
    (∃ t, exec .ret (start []) = .next t ∧ t.fault ≠ (start []).fault) ∧
    (∃ t, exec (.call 0x300) { start [] with stack := List.replicate 16 0x202 } = .next t ∧ t.fault ≠ none) ∧
    (∃ t, exec (.loadMem 1) (drawing 0xFFF) = .next t ∧ t.fault ≠ (drawing 0xFFF).fault) :=
  ⟨⟨_, rfl, by decide⟩, ⟨_, rfl, by decide⟩, _, rfl, by decide⟩

theorem witness_SoundTimerAffectsNothing :
    withoutSound (start []) = withoutSound { start [] with st := 9 } ∧ (start []).st ≠ 9 := ⟨rfl, by decide⟩

theorem witness_HiddenStateIsInvisible :
    visible (start []) = visible { start [] with dirty := true, displayChanged := true, trace := [.decodeMiss 0] } ∧
      (start []).dirty ≠ true := ⟨rfl, by decide⟩

theorem witness_PlacedWordIsFetchedNext :
    State.reset.pc.toNat + 1 < 4096 ∧ (lastWord.pc.toNat + 1 < 4096 ∧ lastWord.pc.toNat + 1 = 4095) := by decide

/-- R266: each code. -/
theorem test_fault_port :
    ([none, some .stackOverflow, some .stackUnderflow, some .memOutOfRange].map fun c =>
      faultPort { State.reset with fault := c }) = [0, 1, 2, 3] := by decide

/-- R36: a lit and an unlit cell under the default palette. -/
theorem test_colour :
    (Framebuffer.blank.put 0 0 true).colour Palette.default 0 0 = 0xFFFFFF ∧
      (Framebuffer.blank.put 0 0 true).colour Palette.default 1 0 = 0x000000 := by decide

theorem witness_OutputPortsShowTheState :
    faultPort (start []) = faultPort (start [(1, 5)]) ∧ Palette.default.wellFormed = true ∧
      ∀ x y, Framebuffer.blank.colour Palette.default x y = (clearDisplay (Framebuffer.blank.put 0 0 true)).colour
        Palette.default x y := ⟨rfl, rfl, fun _ _ => rfl⟩

/-- CF5: a `Jump` to itself at 0x200. -/
def looping : State := { State.reset with mem := ⟨[(0x200, 0x12)]⟩, feed := [quiet] }

/-- A run that ends after one move: the word at 0xFFE jumps to the `Jump` to itself at 0x200. -/
def lastJump : State := { lastWord with mem := ⟨[(0x200, 0x12), (0xFFE, 0x12)]⟩ }

/-- At the end; not at the end: another target, a latched fault, a refused program, a pc past the end of memory. -/
theorem test_at_end : looping.atEnd = true ∧ lastJump.atEnd = false ∧
    ({ looping with fault := some .stackOverflow } : State).atEnd = false ∧
    ({ looping with loadError := true } : State).atEnd = false ∧
    ({ looping with pc := 0xFFF } : State).atEnd = false := ⟨rfl, rfl, rfl, rfl, rfl⟩

theorem witness_EndOfRunIsTheFirstJumpToItself : looping.atEnd = true ∧ ∃ t, EndsAfter 1 lastJump t := by
  refine ⟨rfl, _, rfl, rfl, fun k u hk hu => ?_⟩
  obtain rfl : k = 0 := by omega
  cases hu
  rfl

theorem witness_EndOfRunIsKeptUntilReset :
    let closing : State := { looping with feed := [{ quiet with close := true }] }
    let ticking : State := { looping with feed := [tick] }
    (looping.atEnd = true ∧ looping.input.turn = .instruction ∧ looping.input.close = false) ∧
    (closing.atEnd = true ∧ closing.input.turn = .instruction ∧ closing.input.close = true) ∧
    (ticking.atEnd = true ∧ ∃ t, step ticking = .next t) :=
  ⟨⟨rfl, rfl, rfl⟩, ⟨rfl, rfl, rfl⟩, rfl, _, rfl⟩

end Sys2Proof.Tests
end

section
/-! The call stack (spec/10_state.md R30): what a row of pushes leaves, and the laws of `Push` and `Pop`. -/

namespace Sys2Proof.Claims

open Sys2Proof.Machine

section PushAll

variable (s : State)

@[simp] theorem pushAll_nil : pushAll [] s = .done () s := rfl

@[simp] theorem pushAll_cons (a : Word) (as : List Word) :
    pushAll (a :: as) s = (push a s).andThen fun _ t => pushAll as t := rfl

/-- Pushes in a row may be cut anywhere: a fault in the first part stops the second. -/
theorem pushAll_append (as bs : List Word) :
    pushAll (as ++ bs) s = (pushAll as s).andThen fun _ t => pushAll bs t := by
  induction as generalizing s with
  | nil => rfl
  | cons a as ih =>
    rw [List.cons_append, pushAll_cons, pushAll_cons]
    cases push a s with
    | done _ t => exact ih t
    | raised t => rfl

/-- As long as all of them fit, every push succeeds and the values stand on the stack in order. -/
theorem pushAll_room (as : List Word) (h : s.stack.length + as.length ≤ Config.stackDepth) :
    pushAll as s = .done () (s.setStack (s.stack ++ as)) := by
  induction as generalizing s with
  | nil => rw [List.append_nil]; rfl
  | cons a as ih =>
    rw [List.length_cons] at h
    have rest_fits : (s.setStack (s.stack ++ [a])).stack.length + as.length ≤ Config.stackDepth := by
      simp only [State.setStack_stack, List.length_append, List.length_singleton]
      omega
    rw [pushAll_cons, push_room s (by omega), Flow.andThen_done, ih _ rest_fits, State.setStack_stack,
      List.append_assoc]
    rfl

/-- The push after the one that filled the stack overflows, and the stack keeps what the earlier ones put there. -/
theorem pushAll_overflow (as : List Word) (a : Word) (h : s.stack.length + as.length = Config.stackDepth) :
    pushAll (as ++ [a]) s = .raised (takeFault .stackOverflow (s.setStack (s.stack ++ as))) := by
  have full : Config.stackDepth ≤ (s.setStack (s.stack ++ as)).stack.length := by simp [h]
  rw [pushAll_append, pushAll_room s as h.le, Flow.andThen_done, pushAll_cons, push_full _ full,
    Flow.andThen_raised]

end PushAll

/-- Settles O24: each single operation by its own law, the seventeen pushes by induction on the values pushed. -/
theorem stackOperationsObeyTheirLaws : Obligations.StackOperationsObeyTheirLaws := by
  refine ⟨fun s a room => ⟨push_room s room, pop_append _ rfl⟩, fun s a full => push_full s full.ge,
    fun s empty => pop_empty s empty, fun s as a empty sixteen => ?_⟩
  have filled : s.stack.length + as.length = Config.stackDepth := by rw [empty, sixteen]; rfl
  have stack_eq : s.setStack (s.stack ++ as) = { s with stack := as } := by rw [empty]; rfl
  constructor
  · rw [pushAll_room s as filled.le, stack_eq]
  · rw [pushAll_overflow s as a filled, stack_eq, takeFault_eq]

end Sys2Proof.Claims
end

section
/-! The framebuffer controller (spec/44_display.md R220, R221): what one `WritePixel` does to the buffer, and what a row
of `Clear`s leaves. -/

namespace Sys2Proof.Machine

section Put

variable (f : Framebuffer) (x : Fin 64) (y : Fin 32)

@[simp] theorem Framebuffer.get_put_same (lit : Bool) : (f.put x y lit).get x y = lit := by
  simp [Framebuffer.get_put]

theorem Framebuffer.get_put_of_ne {x' : Fin 64} {y' : Fin 32} (other : (x', y') ≠ (x, y)) (lit : Bool) :
    (f.put x y lit).get x' y' = f.get x' y' := by
  rw [Framebuffer.get_put, if_neg fun ⟨hx, hy⟩ => other (Prod.ext hx hy)]

/-- The later of two writes to a cell stands. -/
@[simp] theorem Framebuffer.put_put_same (a b : Bool) : (f.put x y a).put x y b = f.put x y b := by
  refine Framebuffer.ext_get fun x' y' => ?_
  by_cases same : x' = x ∧ y' = y <;> simp [Framebuffer.get_put, same]

@[simp] theorem Framebuffer.put_get_same : f.put x y (f.get x y) = f := by
  refine Framebuffer.ext_get fun x' y' => ?_
  rw [Framebuffer.get_put, ite_eq_right_iff]
  rintro ⟨rfl, rfl⟩
  rfl

end Put

end Sys2Proof.Machine

namespace Sys2Proof.Claims

open Sys2Proof.Machine

/-- R220: `WritePixel` touches its own cell only, in either mode. -/
theorem writePixel_get_of_ne (mode : PixelMode) (f : Framebuffer) {x x' : Fin 64} {y y' : Fin 32}
    (other : (x', y') ≠ (x, y)) : (writePixel x y mode f).1.get x' y' = f.get x' y' := by
  cases mode with
  | clear => rw [writePixel_clear, Framebuffer.get_put_of_ne f x y other]
  | toggle => rw [writePixel_toggle, Framebuffer.get_put_of_ne f x y other]

/-- R220: the second toggle of a cell undoes the first and reports the opposite. -/
theorem writePixel_toggle_twice (x : Fin 64) (y : Fin 32) (f : Framebuffer) :
    writePixel x y .toggle (writePixel x y .toggle f).1 = (f, !f.get x y) := by
  simp [writePixel_toggle]

/-- Settles O37: each mode by its equation on `put`, the other cells by the frame of `WritePixel`. -/
theorem writePixelContract : Obligations.WritePixelContract := by
  intro x y f
  refine ⟨rfl, ?cleared, ?collided, ?toggled, fun mode _ _ other => writePixel_get_of_ne mode f other, ?restored⟩
  case cleared => rw [writePixel_clear, Framebuffer.get_put_same]
  case collided => rw [writePixel_toggle]
  case toggled => rw [writePixel_toggle, Framebuffer.get_put_same]
  case restored => exact Prod.ext_iff.mp (writePixel_toggle_twice x y f)

/-- Clearing a list of cells unlights exactly those. -/
theorem clearCells_get (cells : List (Fin 64 × Fin 32)) (f : Framebuffer) (x : Fin 64) (y : Fin 32) :
    (clearCells cells f).get x y = if (x, y) ∈ cells then false else f.get x y := by
  induction cells generalizing f with
  | nil => rfl
  | cons p ps ih =>
    have first_then_rest : clearCells (p :: ps) f = clearCells ps (writePixel p.1 p.2 .clear f).1 := rfl
    rw [first_then_rest, ih]
    by_cases here : (x, y) = p
    · subst here; simp [writePixel_clear]
    · simp [here, writePixel_get_of_ne .clear f here]

/-- Settles O38: the blank buffer and the buffer cleared cell by cell agree on every cell. -/
theorem clearDisplayClearsEveryCell : Obligations.ClearDisplayClearsEveryCell := by
  intro f cells all
  refine ⟨Framebuffer.ext_get fun x y => ?_, Framebuffer.get_blank⟩
  rw [clearCells_get, if_pos (all x y)]
  exact Framebuffer.get_blank x y

end Sys2Proof.Claims
end

section
/-! Decoder, encoder and opcode table against each other (spec/30_encoding.md R94 to R104): decoding undoes encoding,
re-encoding undoes decoding, a selected row is the row of the decoded instruction, and the misses are what is left. -/

namespace Sys2Proof

/-! ### Decoding an encoded instruction -/

/-- The formats carry the category and the operands, and the decoder reads exactly these back. -/
theorem decode_encode (i : Instr) : decode (encode i) = .ok i := by
  cases i with
  | clear | ret => rfl
  | jump | call | setIndex | jumpOffset => simp [encode, decode]
  | skipEqVal | skipNeVal | set | add | rand => simp [encode, decode]
  | skipEqReg | skipNeReg => simp [encode, decode, decodeRegSkip]
  | setReg | or | and | xor | addReg | sub1 | shr | sub2 | shl => simp [encode, decode, decodeAlu]
  | display => simp [encode, decode]
  | skipIfKey | skipIfNotKey => simp [encode, decode, decodeKeySkip]
  | getDelay | waitForKey | setDelay | setSound | addIndex | getFontChar | binToDec | storeMem | loadMem =>
    simp [encode, decode, decodeMisc]

theorem decodeBytes_encodeBytes (i : Instr) (rest : List Byte) :
    decodeBytes (encodeBytes i ++ rest) = .ok (i, rest) := by
  simp [encodeBytes, decodeBytes, decode_encode]

/-! ### The fields of a literal word -/

@[simp] theorem catOf_ofNat (n : Nat) : catOf (BitVec.ofNat 16 n) = BitVec.ofNat 4 (n / 4096) := by
  apply BitVec.eq_of_toNat_eq
  simp only [catOf, BitVec.extractLsb'_toNat, BitVec.toNat_ofNat, Nat.shiftRight_eq_div_pow]
  omega

@[simp] theorem nOf_ofNat (n : Nat) : nOf (BitVec.ofNat 16 n) = BitVec.ofNat 4 n := by
  apply BitVec.eq_of_toNat_eq
  simp only [nOf, BitVec.extractLsb'_toNat, BitVec.toNat_ofNat, Nat.shiftRight_eq_div_pow]
  omega

@[simp] theorem nnOf_ofNat (n : Nat) : nnOf (BitVec.ofNat 16 n) = BitVec.ofNat 8 n := by
  apply BitVec.eq_of_toNat_eq
  simp only [nnOf, BitVec.extractLsb'_toNat, BitVec.toNat_ofNat, Nat.shiftRight_eq_div_pow]
  omega

/-! ### Re-encoding a decoded word, one sub-decoder at a time -/

section Fields

variable {w : Word} {c : Nibble}

theorem formatNNN_eq (hc : catOf w = c) : formatNNN c (nnnOf w) = w := hc ▸ formatNNN_fields w

theorem formatXNN_eq (hc : catOf w = c) {nn : Byte} (hn : nnOf w = nn) : formatXNN c (xOf w) nn = w :=
  hc ▸ hn ▸ formatXNN_fields w

theorem formatXYN_eq (hc : catOf w = c) {n : Nibble} (hn : nOf w = n) : formatXYN c (xOf w) (yOf w) n = w :=
  hc ▸ hn ▸ formatXYN_fields w

end Fields

section Reencoding

variable {w : Word} {i : Instr}

theorem encode_of_decodeLiteral (h : decodeLiteral w = .ok i) : encode i = w := by
  unfold decodeLiteral at h
  split at h
  · cases h; exact Eq.symm ‹_›
  · split at h
    · cases h; exact Eq.symm ‹_›
    · cases h

theorem decodeRegSkip_ok {f : Reg → Reg → Instr} (h : decodeRegSkip f w = .ok i) :
    f (xOf w) (yOf w) = i ∧ nOf w = 0x0 := by
  unfold decodeRegSkip at h
  split at h
  · cases h; exact ⟨rfl, ‹_›⟩
  · cases h

theorem encode_of_decodeAlu (hc : catOf w = 0x8) (h : decodeAlu w = .ok i) : encode i = w := by
  unfold decodeAlu at h
  split at h <;> cases h <;> exact formatXYN_eq hc ‹_›

theorem encode_of_decodeKeySkip (hc : catOf w = 0xE) (h : decodeKeySkip w = .ok i) : encode i = w := by
  unfold decodeKeySkip at h
  split at h <;> cases h <;> exact formatXNN_eq hc ‹_›

theorem encode_of_decodeMisc (hc : catOf w = 0xF) (h : decodeMisc w = .ok i) : encode i = w := by
  unfold decodeMisc at h
  split at h <;> cases h <;> exact formatXNN_eq hc ‹_›

/-- The cases are the categories 0x0 to 0xF in order; the last arm of the decoder is category 0xF. -/
theorem encode_of_decode (h : decode w = .ok i) : encode i = w := by
  unfold decode at h
  split at h <;> rename_i hc
  case h_1 => exact encode_of_decodeLiteral h
  case h_2 | h_3 | h_11 | h_12 => cases h; exact formatNNN_eq hc
  case h_4 | h_5 | h_7 | h_8 | h_13 => cases h; exact formatXNN_eq hc rfl
  case h_6 | h_10 =>
    obtain ⟨rfl, low_zero⟩ := decodeRegSkip_ok h
    exact formatXYN_eq hc low_zero
  case h_9 => exact encode_of_decodeAlu hc h
  case h_14 => cases h; exact formatXYN_eq hc rfl
  case h_15 => exact encode_of_decodeKeySkip hc h
  case h_16 =>
    have last : catOf w = 0xF := nibble_last _ (by simp_all)
    exact encode_of_decodeMisc last h

end Reencoding

theorem decode_injective {w w' : Word} {i : Instr} (h : decode w = .ok i) (h' : decode w' = .ok i) : w = w' :=
  (encode_of_decode h).symm.trans (encode_of_decode h')

/-! ### The rows of the opcode table -/

/-- The word of an instruction selects its row: the family `SelectsItsRow`, gathered. -/
theorem encode_selects_row : ∀ i : Instr, encode i &&& i.row.mask = i.row.pattern
  | .clear => Laws.SelectsItsRow.clear
  | .ret => Laws.SelectsItsRow.ret
  | .jump a => Laws.SelectsItsRow.jump a
  | .call a => Laws.SelectsItsRow.call a
  | .skipEqVal x nn => Laws.SelectsItsRow.skipEqVal x nn
  | .skipNeVal x nn => Laws.SelectsItsRow.skipNeVal x nn
  | .skipEqReg x y => Laws.SelectsItsRow.skipEqReg x y
  | .set x nn => Laws.SelectsItsRow.set x nn
  | .add x nn => Laws.SelectsItsRow.add x nn
  | .setReg x y => Laws.SelectsItsRow.setReg x y
  | .or x y => Laws.SelectsItsRow.or x y
  | .and x y => Laws.SelectsItsRow.and x y
  | .xor x y => Laws.SelectsItsRow.xor x y
  | .addReg x y => Laws.SelectsItsRow.addReg x y
  | .sub1 x y => Laws.SelectsItsRow.sub1 x y
  | .shr x y => Laws.SelectsItsRow.shr x y
  | .sub2 x y => Laws.SelectsItsRow.sub2 x y
  | .shl x y => Laws.SelectsItsRow.shl x y
  | .skipNeReg x y => Laws.SelectsItsRow.skipNeReg x y
  | .setIndex a => Laws.SelectsItsRow.setIndex a
  | .jumpOffset a => Laws.SelectsItsRow.jumpOffset a
  | .rand x nn => Laws.SelectsItsRow.rand x nn
  | .display x y n => Laws.SelectsItsRow.display x y n
  | .skipIfKey x => Laws.SelectsItsRow.skipIfKey x
  | .skipIfNotKey x => Laws.SelectsItsRow.skipIfNotKey x
  | .getDelay x => Laws.SelectsItsRow.getDelay x
  | .waitForKey x => Laws.SelectsItsRow.waitForKey x
  | .setDelay x => Laws.SelectsItsRow.setDelay x
  | .setSound x => Laws.SelectsItsRow.setSound x
  | .addIndex x => Laws.SelectsItsRow.addIndex x
  | .getFontChar x => Laws.SelectsItsRow.getFontChar x
  | .binToDec x => Laws.SelectsItsRow.binToDec x
  | .storeMem x => Laws.SelectsItsRow.storeMem x
  | .loadMem x => Laws.SelectsItsRow.loadMem x

section Selecting

variable {w p : Word}

/-- A word that selects a row of mask 0xF000 has the category of the row's match. -/
theorem category_of_selects (h : w &&& 0xF000 = p) : catOf w = catOf p := by
  rw [← h, and_maskNNN, catOf_formatXYN]

theorem low_nibble_of_selects (h : w &&& 0xF00F = p) : catOf w = catOf p ∧ nOf w = nOf p := by
  rw [← h, and_maskXYn, catOf_formatXYN, nOf_formatXYN]
  exact ⟨rfl, rfl⟩

theorem low_byte_of_selects (h : w &&& 0xF0FF = p) : catOf w = catOf p ∧ nnOf w = nnOf p := by
  rw [← h, and_maskXnn, catOf_formatXNN, nnOf_formatXNN]
  exact ⟨rfl, rfl⟩

/-- The mask fixes the category and, for the rows with a sub-opcode, the low nibble or byte; the decoder looks at
nothing else. -/
theorem decode_of_selects_row (i : Instr) (h : w &&& i.row.mask = i.row.pattern) :
    ∃ j, decode w = .ok j ∧ j.row = i.row := by
  cases i with
  | clear | ret =>
    have literal : w = _ := (BitVec.and_allOnes (x := w)).symm.trans h
    subst literal
    exact ⟨_, rfl, rfl⟩
  | jump | call | skipEqVal | skipNeVal | set | add | setIndex | jumpOffset | rand | display =>
    have cat := category_of_selects h
    simp [decode, cat, Instr.row]
  | skipEqReg | skipNeReg =>
    obtain ⟨cat, low⟩ := low_nibble_of_selects h
    simp [decode, decodeRegSkip, cat, low, Instr.row]
  | setReg | or | and | xor | addReg | sub1 | shr | sub2 | shl =>
    obtain ⟨cat, low⟩ := low_nibble_of_selects h
    simp [decode, decodeAlu, cat, low, Instr.row]
  | skipIfKey | skipIfNotKey =>
    obtain ⟨cat, low⟩ := low_byte_of_selects h
    simp [decode, decodeKeySkip, cat, low, Instr.row]
  | getDelay | waitForKey | setDelay | setSound | addIndex | getFontChar | binToDec | storeMem | loadMem =>
    obtain ⟨cat, low⟩ := low_byte_of_selects h
    simp [decode, decodeMisc, cat, low, Instr.row]

end Selecting

theorem row_mem_opcodeTable (i : Instr) : i.row ∈ opcodeTable := by
  cases i <;> simp [opcodeTable, rowSamples, Instr.row]

/-- Two rows that agree wherever both masks look select a word in common, and only such rows do. -/
theorem patterns_agree_of_selects_both {r q : OpcodeRow} {w : Word} (hr : w &&& r.mask = r.pattern)
    (hq : w &&& q.mask = q.pattern) : r.pattern &&& q.mask = q.pattern &&& r.mask := by
  rw [← hr, ← hq, BitVec.and_assoc, BitVec.and_assoc, BitVec.and_comm r.mask]

/-! ### Misses -/

theorem decode_ok_or_miss (w : Word) : (∃ i, decode w = .ok i) ∨ decode w = .error (.miss w) := by
  cases h : decode w with
  | ok i => exact .inl ⟨i, rfl⟩
  | error e => rw [decode_error h]; exact .inr rfl

section Misses

variable {w : Word}

theorem decodeLiteral_miss : decodeLiteral w = .error (.miss w) ↔ w ≠ 0x00E0 ∧ w ≠ 0x00EE := by
  unfold decodeLiteral
  split
  · simp_all
  · split <;> simp_all

theorem decodeRegSkip_miss {f : Reg → Reg → Instr} : decodeRegSkip f w = .error (.miss w) ↔ nOf w ≠ 0x0 := by
  unfold decodeRegSkip
  split <;> simp_all

theorem decodeAlu_miss :
    decodeAlu w = .error (.miss w) ↔ nOf w ∈ ([0x8, 0x9, 0xA, 0xB, 0xC, 0xD, 0xF] : List Nibble) := by
  rw [← nibble_no_alu_operation]
  unfold decodeAlu
  split <;> simp_all

theorem decodeKeySkip_miss : decodeKeySkip w = .error (.miss w) ↔ nnOf w ∉ ([0x9E, 0xA1] : List Byte) := by
  unfold decodeKeySkip
  split <;> simp_all

theorem decodeMisc_miss : decodeMisc w = .error (.miss w) ↔
    nnOf w ∉ ([0x07, 0x0A, 0x15, 0x18, 0x1E, 0x29, 0x33, 0x55, 0x65] : List Byte) := by
  unfold decodeMisc
  split <;> simp_all

end Misses

end Sys2Proof

namespace Sys2Proof.Claims

/-- Settles O1: every format gives its fields back, and a word its bytes. -/
theorem decodeOfEncodeIsTheInstruction : Obligations.DecodeOfEncodeIsTheInstruction :=
  fun i rest => ⟨decode_encode i, decodeBytes_encodeBytes i rest⟩

/-- Settles O2: the fields of a word determine it, and so does the instruction built from them. -/
theorem encodeOfDecodeIsTheWord : Obligations.EncodeOfDecodeIsTheWord :=
  ⟨fun _ _ => encode_of_decode, fun _ _ _ => decode_injective⟩

/-- Settles O3: a selected row by the category and sub-opcode its mask fixes; without one the word cannot decode, for it
would select the row of its instruction. -/
theorem decodeFollowsTheOpcodeTable : Obligations.DecodeFollowsTheOpcodeTable := by
  intro w
  refine ⟨fun r hr selects => ?_, fun unselected => ?_⟩
  · obtain ⟨i, -, rfl⟩ := List.mem_map.mp hr
    exact decode_of_selects_row i selects
  · rcases decode_ok_or_miss w with ⟨i, hi⟩ | miss
    · have selects := encode_selects_row i
      rw [encode_of_decode hi] at selects
      exact absurd selects (unselected _ (row_mem_opcodeTable i))
    · exact miss

/-- Settles O4: each category by the misses of its sub-decoder. -/
theorem decodeMissesAreThoseListed : Obligations.DecodeMissesAreThoseListed := by
  intro w
  refine ⟨decode_ok_or_miss w, ?_⟩
  unfold decode
  split <;> rename_i hc
  case h_1 => simp [hc, decodeLiteral_miss]
  case h_6 | h_10 => simp [hc, decodeRegSkip_miss]
  case h_9 => simp [hc, decodeAlu_miss]
  case h_15 => simp [hc, decodeKeySkip_miss]
  case h_16 =>
    have last : catOf w = 0xF := nibble_last _ (by simp_all)
    simp [last, decodeMisc_miss]
  all_goals simp [hc]

/-- Settles O5: any two of the 34 rows differ at a bit both masks look at. -/
theorem opcodeRowsAreDisjoint : Obligations.OpcodeRowsAreDisjoint := by
  have differ : opcodeTable.Pairwise fun r q => r.pattern &&& q.mask ≠ q.pattern &&& r.mask := by decide
  exact ⟨rfl, differ.imp fun differ w ⟨hr, hq⟩ => differ (patterns_agree_of_selects_both hr hq)⟩

/-- Settles O6: by evaluation of the decoder on each word. -/
theorem specWordsDecode : Obligations.SpecWordsDecode :=
  ⟨rfl, rfl, rfl, rfl, rfl, rfl, rfl, rfl, rfl, rfl, rfl⟩

end Sys2Proof.Claims
end

section
/-! What one instruction can do, said once (spec/40_machine_cycle.md R123, spec/10_state.md sections 2 to 6): the
effects by kind, and from them the writers of each field. -/

namespace Sys2Proof.Machine

theorem zextAddr_toNat (a : Addr) : (zextAddr a).toNat = a.toNat := by
  simp only [zextAddr, BitVec.toNat_setWidth]
  omega

theorem zextByte_toNat (b : Byte) : (zextByte b).toNat = b.toNat := by
  simp only [zextByte, BitVec.toNat_setWidth]
  omega

/-- R159: the sum is below 0x10FF, so the addition does not wrap. -/
theorem jumpOffset_toNat (a : Addr) (b : Byte) : (zextAddr a + zextByte b).toNat = a.toNat + b.toNat := by
  rw [BitVec.toNat_add, zextAddr_toNat, zextByte_toNat]
  omega

end Sys2Proof.Machine

namespace Sys2Proof.Claims

open Sys2Proof.Machine

/-! ### The framing lemmas the list of effects needs -/

/-- Stores inside the space keep the canonical form of memory, and one outside it stores nothing. -/
theorem storeBytes_wf (bs : List Byte) (a : Nat) (s : State) (canonical : s.mem.wf) :
    (storeBytes a bs s).final.mem.wf := by
  induction bs generalizing a s with
  | nil => exact canonical
  | cons b bs ih =>
    by_cases h : a < Config.memSize
    · rw [storeBytes, memWrite_inRange s h, Flow.andThen_done]
      exact ih _ _ (Memory.wf_write canonical a b h)
    · rw [storeBytes, memWrite_outOfRange s (by omega), Flow.andThen_raised]
      exact canonical

/-- Registers that are not on the list keep their value. -/
theorem loadRegs_getV_of_notMem (base : Nat) (ks : List Reg) (s : State) {r : Reg} (hr : r ∉ ks) :
    (loadRegs base ks s).final.getV r = s.getV r := by
  induction ks generalizing s with
  | nil => rfl
  | cons k ks ih =>
    obtain ⟨other, rest⟩ := List.ne_and_not_mem_of_not_mem_cons hr
    by_cases h : base + k < Config.memSize
    · rw [loadRegs, memRead_inRange s h, Flow.andThen_done, ih _ rest, State.setV_getV, if_neg other]
    · rw [loadRegs, memRead_outOfRange s (by omega), Flow.andThen_raised]
      rfl

/-! ### The effects -/

/-- The state an instruction `i` can leave from `s`: one constructor per kind of effect. -/
inductive Effect (s : State) : Instr → State → Prop
  | registers {i : Instr} (v : Vector Byte 16)
      (kept : ∀ r, ¬ mayWrite i r → ({ s with v := v } : State).getV r = s.getV r) : Effect s i { s with v := v }
  | pc {i : Instr} (p : Word)
      (target : p.toNat ≤ 0x10FE ∨ p = s.pc ∨ p = s.pc + 2 ∨ p = s.pc - 2) : Effect s i (s.setPc p)
  | index {i : Instr} (a : Word)
      (writer : (∃ a, i = .setIndex a) ∨ (∃ x, i = .addIndex x) ∨ ∃ x, i = .getFontChar x) :
      Effect s i (s.setIndex a)
  | delay (x : Reg) : Effect s (.setDelay x) (s.setDt (s.getV x))
  | sound (x : Reg) : Effect s (.setSound x) (s.setSt (s.getV x))
  | called (a : Addr) (room : s.stack.length < Config.stackDepth) :
      Effect s (.call a) ((s.setStack (s.stack ++ [s.pc])).setPc (zextAddr a))
  | overflowed (a : Addr) : Effect s (.call a) (takeFault .stackOverflow s)
  | returned (l : List Word) (a : Word) (newest : s.stack = l ++ [a]) : Effect s .ret ((s.setStack l).setPc a)
  | underflowed : Effect s .ret (takeFault .stackUnderflow s)
  | stored {i : Instr} (m : Memory) (f : Option FaultCode) (tr : List Event)
      (writer : (∃ x, i = .binToDec x) ∨ ∃ x, i = .storeMem x) (latch : f = s.fault ∨ f = some .memOutOfRange)
      (canonical : s.mem.wf → m.wf) : Effect s i { s with mem := m, fault := f, trace := tr }
  | loaded (x : Reg) (v : Vector Byte 16) (f : Option FaultCode) (tr : List Event)
      (kept : ∀ r, ¬ r ≤ x → ({ s with v := v } : State).getV r = s.getV r)
      (latch : f = s.fault ∨ f = some .memOutOfRange) :
      Effect s (.loadMem x) { s with v := v, fault := f, trace := tr }
  | cleared : Effect s .clear ((s.setFb Framebuffer.blank).setDisplayChanged true)
  | drawn (x y : Reg) (n : Nibble) (v : Vector Byte 16) (fb : Framebuffer) (f : Option FaultCode)
      (tr : List Event) (c : Bool) (kept : ∀ r, r ≠ flagReg → ({ s with v := v } : State).getV r = s.getV r)
      (latch : f = s.fault ∨ f = some .memOutOfRange) :
      Effect s (.display x y n) { s with v := v, fb := fb, fault := f, trace := tr, displayChanged := c }

section Effects

variable (s : State)

/-- Writing one register the instruction may write is an effect on registers. -/
theorem Effect.ofSetV {i : Instr} {x : Reg} (dest : mayWrite i x) (b : Byte) : Effect s i (s.setV x b) := by
  refine .registers _ fun r kept => ?_
  have other : r ≠ x := by rintro rfl; exact kept dest
  exact (State.setV_getV s x r b).trans (if_neg other)

theorem Effect.ofWriteWithFlag {i : Instr} {x : Reg} (dest : mayWrite i x) (flag : mayWrite i flagReg) (b : Byte)
    (c : Bool) : Effect s i (writeWithFlag x b c s) := by
  refine .registers (writeWithFlag x b c s).v fun r kept => ?_
  have not_flag : r ≠ flagReg := by rintro rfl; exact kept flag
  have not_dest : r ≠ x := by rintro rfl; exact kept dest
  rw [← writeWithFlag_frame, writeWithFlag_getV, if_neg not_flag, if_neg not_dest]

theorem Effect.ofSkip {i : Instr} (c : Bool) : Effect s i (skipIf c s) := by
  cases c with
  | true => exact .pc _ (.inr (.inr (.inl rfl)))
  | false => exact .pc s.pc (.inr (.inl rfl))

theorem execCall_effect (a : Addr) : ∃ t, exec (.call a) s = .next t ∧ Effect s (.call a) t := by
  refine ⟨_, rfl, ?_⟩
  by_cases room : s.stack.length < Config.stackDepth
  · rw [push_room s room]
    exact .called a room
  · rw [push_full s (by omega)]
    exact .overflowed a

theorem execRet_effect : ∃ t, exec .ret s = .next t ∧ Effect s .ret t := by
  refine ⟨_, rfl, ?_⟩
  rcases List.eq_nil_or_concat s.stack with empty | ⟨l, a, newest⟩
  · rw [pop_empty s empty]
    exact .underflowed
  · rw [List.concat_eq_append] at newest
    rw [pop_append s newest]
    exact .returned l a newest

theorem stores_effect {i : Instr} (writer : (∃ x, i = .binToDec x) ∨ ∃ x, i = .storeMem x) (a : Nat)
    (bs : List Byte) : Effect s i (storeBytes a bs s).final := by
  have canonical := storeBytes_wf bs a s
  obtain ⟨m, f, tr, frame, latch⟩ := storeBytes_frame s bs a
  rw [frame] at canonical ⊢
  exact .stored m f tr writer latch canonical

theorem loads_effect (x : Reg) : Effect s (.loadMem x) (loadRegs s.base (regsThrough x) s).final := by
  have kept : ∀ r, ¬ r ≤ x → _ := fun r hr =>
    loadRegs_getV_of_notMem s.base (regsThrough x) s (r := r) (by rwa [mem_regsThrough])
  obtain ⟨v, f, tr, frame, latch⟩ := loadRegs_frame s s.base (regsThrough x)
  rw [frame] at kept ⊢
  exact .loaded x v f tr kept latch

/-- A report of a change after a completed draw, none after a faulted one, is one write of `display_changed`. -/
theorem final_report (d : Flow Unit) :
    ∃ c, (d.andThen fun _ t => .done () (t.setDisplayChanged true)).final = d.final.setDisplayChanged c := by
  cases d with
  | done _ t => exact ⟨true, rfl⟩
  | raised t => exact ⟨t.displayChanged, rfl⟩

theorem execDisplay_effect (x y : Reg) (n : Nibble) :
    ∃ t, exec (.display x y n) s = .next t ∧ Effect s (.display x y n) t := by
  refine ⟨_, rfl, ?_⟩
  obtain ⟨c, report⟩ := final_report (drawRows (originX (s.getV x)) n.toNat (originY (s.getV y)) s.base s)
  obtain ⟨ps, f, tr, frame, latch⟩ := drawRows_frame (originX (s.getV x)) n.toNat (originY (s.getV y)) s.base s
  rw [report, frame, toggleAll_frame]
  exact .drawn x y n _ _ f tr c (fun r hr => toggleAll_getV ps s hr) latch

/-- Every instruction completes, with an effect of its kind. -/
theorem exec_effect (i : Instr) : ∃ t, exec i s = .next t ∧ Effect s i t := by
  cases i with
  | clear => exact ⟨_, rfl, .cleared⟩
  | ret => exact execRet_effect s
  | jump a =>
    have bound : (zextAddr a).toNat ≤ 0x10FE := by rw [zextAddr_toNat]; omega
    exact ⟨_, rfl, .pc _ (.inl bound)⟩
  | call a => exact execCall_effect s a
  | jumpOffset a =>
    have bound : (zextAddr a + zextByte (s.getV 0)).toNat ≤ 0x10FE := by rw [jumpOffset_toNat]; omega
    exact ⟨_, rfl, .pc _ (.inl bound)⟩
  | skipEqVal | skipNeVal | skipEqReg | skipNeReg | skipIfKey | skipIfNotKey => exact ⟨_, rfl, .ofSkip s _⟩
  | set | add | setReg | or | and | xor | rand | getDelay =>
    refine ⟨_, rfl, .ofSetV s ?_ _⟩
    exact rfl
  | addReg | sub1 | shr | sub2 | shl =>
    refine ⟨_, rfl, .ofWriteWithFlag s ?_ ?_ _ _⟩
    exacts [Or.inl rfl, Or.inr rfl]
  | setIndex a => exact ⟨_, rfl, .index _ (.inl ⟨a, rfl⟩)⟩
  | addIndex x => exact ⟨_, rfl, .index _ (.inr (.inl ⟨x, rfl⟩))⟩
  | getFontChar x => exact ⟨_, rfl, .index _ (.inr (.inr ⟨x, rfl⟩))⟩
  | display x y n => exact execDisplay_effect s x y n
  | waitForKey x =>
    refine ⟨_, rfl, ?_⟩
    cases s.anyKey with
    | some k =>
      refine .ofSetV s ?_ _
      exact rfl
    | none => exact .pc _ (.inr (.inr (.inr rfl)))
  | setDelay x => exact ⟨_, rfl, .delay x⟩
  | setSound x => exact ⟨_, rfl, .sound x⟩
  | binToDec x => exact ⟨_, rfl, stores_effect s (.inl ⟨x, rfl⟩) _ _⟩
  | storeMem x => exact ⟨_, rfl, stores_effect s (.inr ⟨x, rfl⟩) _ _⟩
  | loadMem x => exact ⟨_, rfl, loads_effect s x⟩

end Effects

section Writers

variable {i : Instr} {s t : State}

theorem effect_of_exec (h : exec i s = .next t) : Effect s i t := by
  obtain ⟨u, hu, e⟩ := exec_effect s i
  cases hu.symm.trans h
  exact e

/-! ### The writers of each field -/

theorem Effect.stack_writers (e : Effect s i t) (changed : t.stack ≠ s.stack) : i = .ret ∨ ∃ a, i = .call a := by
  cases e with
  | called a => exact .inr ⟨a, rfl⟩
  | returned => exact .inl rfl
  | _ => exact absurd rfl changed

theorem Effect.index_writers (e : Effect s i t) (changed : t.index ≠ s.index) :
    (∃ a, i = .setIndex a) ∨ (∃ x, i = .addIndex x) ∨ ∃ x, i = .getFontChar x := by
  cases e with
  | index _ writer => exact writer
  | _ => exact absurd rfl changed

theorem Effect.dt_writers (e : Effect s i t) (changed : t.dt ≠ s.dt) : ∃ x, i = .setDelay x := by
  cases e with
  | delay x => exact ⟨x, rfl⟩
  | _ => exact absurd rfl changed

theorem Effect.st_writers (e : Effect s i t) (changed : t.st ≠ s.st) : ∃ x, i = .setSound x := by
  cases e with
  | sound x => exact ⟨x, rfl⟩
  | _ => exact absurd rfl changed

theorem Effect.mem_writers (e : Effect s i t) (changed : ∃ p, t.byteAt p ≠ s.byteAt p) :
    (∃ x, i = .binToDec x) ∨ ∃ x, i = .storeMem x := by
  obtain ⟨p, changed⟩ := changed
  cases e with
  | stored _ _ _ writer => exact writer
  | _ => exact absurd rfl changed

theorem Effect.fb_writers (e : Effect s i t) (changed : t.fb ≠ s.fb) :
    i = .clear ∨ ∃ x y n, i = .display x y n := by
  cases e with
  | cleared => exact .inl rfl
  | drawn x y n => exact .inr ⟨x, y, n, rfl⟩
  | _ => exact absurd rfl changed

theorem Effect.displayChanged_writers (e : Effect s i t) (changed : t.displayChanged ≠ s.displayChanged) :
    i = .clear ∨ ∃ x y n, i = .display x y n := by
  cases e with
  | cleared => exact .inl rfl
  | drawn x y n => exact .inr ⟨x, y, n, rfl⟩
  | _ => exact absurd rfl changed

theorem Effect.register_writers (e : Effect s i t) {r : Reg} (changed : t.getV r ≠ s.getV r) : mayWrite i r := by
  cases e with
  | registers _ kept => exact not_not.mp fun other => changed (kept r other)
  | loaded x _ _ _ kept => exact not_not.mp fun other => changed (kept r other)
  | drawn x y n _ _ _ _ _ kept => exact not_not.mp fun other => changed (kept r other)
  | _ => exact absurd rfl changed

theorem Effect.fault_writers (e : Effect s i t) (changed : t.fault ≠ s.fault) :
    (t.fault = some .stackOverflow ∧ ∃ a, i = .call a) ∨
    (t.fault = some .stackUnderflow ∧ i = .ret) ∨
    (t.fault = some .memOutOfRange ∧
      ((∃ x, i = .binToDec x) ∨ (∃ x, i = .storeMem x) ∨ (∃ x, i = .loadMem x) ∨ ∃ x y n, i = .display x y n)) := by
  cases e with
  | overflowed a => exact .inl ⟨rfl, a, rfl⟩
  | underflowed => exact .inr (.inl ⟨rfl, rfl⟩)
  | stored _ _ _ writer latch =>
    exact .inr (.inr ⟨latch.resolve_left changed, writer.imp_right .inl⟩)
  | loaded x _ _ _ _ latch => exact .inr (.inr ⟨latch.resolve_left changed, .inr (.inr (.inl ⟨x, rfl⟩))⟩)
  | drawn x y n _ _ _ _ _ _ latch =>
    exact .inr (.inr ⟨latch.resolve_left changed, .inr (.inr (.inr ⟨x, y, n, rfl⟩))⟩)
  | _ => exact absurd rfl changed

/-- No instruction touches the inputs, `load_error` or `dirty`. -/
theorem Effect.untouched (e : Effect s i t) :
    t.feed = s.feed ∧ t.samples = s.samples ∧ t.loadError = s.loadError ∧ t.dirty = s.dirty := by
  cases e <;> exact ⟨rfl, rfl, rfl, rfl⟩

end Writers

/-- Settles O49: every instruction completes, and no effect touches the four fields. -/
theorem everyInstructionAnswersANextState : Obligations.EveryInstructionAnswersANextState := by
  intro i s
  obtain ⟨t, ht, e⟩ := exec_effect s i
  exact ⟨t, ht, e.untouched⟩

/-- Settles O50: by the kinds of effect that write each field. -/
theorem stackIndexAndTimersHaveTheirWriters : Obligations.StackIndexAndTimersHaveTheirWriters :=
  fun _ _ _ h =>
    have e := effect_of_exec h
    ⟨e.stack_writers, e.index_writers, e.dt_writers, e.st_writers⟩

/-- Settles O51: by the kinds of effect that write memory, the framebuffer and the report. -/
theorem memoryAndFramebufferHaveTheirWriters : Obligations.MemoryAndFramebufferHaveTheirWriters :=
  fun _ _ _ h =>
    have e := effect_of_exec h
    ⟨e.mem_writers, e.fb_writers, e.displayChanged_writers⟩

/-- Settles O52: by the registers each kind of effect keeps. -/
theorem generalRegistersHaveTheirWriters : Obligations.GeneralRegistersHaveTheirWriters :=
  fun _ _ _ _ h changed => (effect_of_exec h).register_writers changed

/-- Settles O53: by the kinds of effect that set the latch. -/
theorem faultsAreRaisedByTheseInstructionsOnly : Obligations.FaultsAreRaisedByTheseInstructionsOnly :=
  fun _ _ _ h changed => (effect_of_exec h).fault_writers changed

end Sys2Proof.Claims
end

section
/-! The invariant of the block (spec/10_state.md R28, R29, spec/41_control_flow.md R151): it holds at reset, every
effect of an instruction keeps it, and so does every move. -/

namespace Sys2Proof.Claims

open Sys2Proof.Machine

section Invariant

variable {s t : State}

/-- An advanced pc is the address of a word that could be fetched, plus 2. -/
theorem advance_pc_toNat (fetch : s.canFetch = true) : s.advance.pc.toNat = s.pc.toNat + 2 ∧ s.pc.toNat < 0xFFF := by
  have inRange : s.pc.toNat + 1 < 4096 := of_decide_eq_true fetch
  rw [advance_pc]
  bv_omega

/-- An effect keeps the invariant when the pc it starts from is an advanced one: that pc may be pushed, skipped from or
taken back by 2 (R28, R29, R151). -/
theorem Effect.keeps_inv {i : Instr} (e : Effect s i t) (inv : s.Inv) (low : 2 ≤ s.pc.toNat)
    (high : s.pc.toNat ≤ 0x1000) : t.Inv := by
  obtain ⟨mem_wf, depth, entries, pc_bound⟩ := inv
  cases e with
  | pc p target =>
    refine ⟨mem_wf, depth, entries, ?_⟩
    rcases target with bound | rfl | rfl | rfl
    · exact bound
    · exact pc_bound
    · rw [State.setPc_pc]
      bv_omega
    · rw [State.setPc_pc]
      bv_omega
  | called a room =>
    refine ⟨mem_wf, ?_, ?_, ?_⟩
    · rw [State.setPc_stack, State.setStack_stack, List.length_append, List.length_singleton]
      omega
    · intro b hb
      rcases List.mem_append.mp hb with old | new
      · exact entries b old
      · rw [List.mem_singleton.mp new]
        exact high
    · rw [State.setPc_pc, zextAddr_toNat]
      omega
  | returned l a newest =>
    rw [newest] at depth entries
    rw [List.length_append] at depth
    have popped := entries a (by simp)
    refine ⟨mem_wf, by rw [State.setPc_stack, State.setStack_stack]; omega, fun b hb => ?_, ?_⟩
    · exact entries b (List.mem_append_left _ hb)
    · rw [State.setPc_pc]
      omega
  | stored m f tr _ _ canonical => exact ⟨canonical mem_wf, depth, entries, pc_bound⟩
  | _ => exact ⟨mem_wf, depth, entries, pc_bound⟩

theorem reset_inv : State.reset.Inv :=
  ⟨Memory.wf_empty, Nat.zero_le _, fun _ h => absurd h List.not_mem_nil, by decide⟩

/-- A boot leaves the reset state but for memory and `load_error`. -/
theorem boot_inv (image : List Byte) : (State.boot image).Inv := by
  obtain ⟨-, depth, entries, pc_bound⟩ := reset_inv
  have canonical := boot_wf image
  cases fits : imageFits image with
  | true =>
    rw [boot_fits fits]
    exact ⟨canonical, depth, entries, pc_bound⟩
  | false =>
    rw [boot_refused fits]
    exact ⟨Memory.wf_empty, depth, entries, pc_bound⟩

theorem latchDirty_inv (inv : s.Inv) : (latchDirty s).Inv := by
  rw [latchDirty_eq]
  exact inv

theorem timerTick_inv (inv : s.Inv) : (timerTick s).Inv := by
  rw [timerTick_eq]
  exact inv

/-- The advanced state meets the invariant, with the tighter bounds the effects ask for. -/
theorem advance_inv (fetch : s.canFetch = true) (inv : s.Inv) :
    s.advance.Inv ∧ 2 ≤ s.advance.pc.toNat ∧ s.advance.pc.toNat ≤ 0x1000 := by
  obtain ⟨mem_wf, depth, entries, -⟩ := inv
  obtain ⟨pc_eq, inRange⟩ := advance_pc_toNat fetch
  exact ⟨⟨mem_wf, depth, entries, by omega⟩, by omega, by omega⟩

end Invariant

/-- Settles O17: nothing is listed or pushed at reset. -/
theorem resetMeetsTheInvariant : Obligations.ResetMeetsTheInvariant := reset_inv

/-- Settles O18: by the moves a step can make; an instruction by the effects it can have. -/
theorem everyStepKeepsTheInvariant : Obligations.EveryStepKeepsTheInvariant := by
  intro s t inv h
  rcases step_cases h with ⟨image, -, rfl⟩ | ⟨-, rfl⟩ | ⟨-, -, -, -, instr⟩
  case inl => exact boot_inv image
  case inr.inl => exact timerTick_inv inv
  case inr.inr =>
    rcases instr with ⟨-, rfl⟩ | ⟨fetch, -, rfl⟩ | ⟨fetch, i, u, -, hu, rfl⟩
    case inl => exact inv
    case inr.inl => exact (advance_inv fetch inv).1
    case inr.inr =>
      obtain ⟨advanced, low, high⟩ := advance_inv fetch inv
      exact latchDirty_inv ((effect_of_exec hu).keeps_inv advanced low high)

end Sys2Proof.Claims
end

section
/-! Display instructions (spec/44_display.md R222 to R229): the cells a sprite toggles are the cells its set bits cover,
in row-major order, so a draw is `toggleAll` of that list; what it leaves follows from the laws of `toggleAll`. -/

namespace Sys2Proof.Claims

open Sys2Proof.Machine

section Cells

variable {s : State} {x y : Reg} {rows : Nat}

theorem mem_toggledCells {p : Fin 64 × Fin 32} :
    p ∈ toggledCells s x y rows ↔ covered s x y rows p.1 p.2 = true := by
  obtain ⟨px, py⟩ := p
  simp only [toggledCells, List.mem_flatMap, List.mem_filterMap, List.mem_finRange, true_and,
    Option.ite_none_right_eq_some, Option.some.injEq, Prod.mk.injEq]
  constructor
  · rintro ⟨_, _, cov, rfl, rfl⟩
    exact cov
  · exact fun cov => ⟨py, px, cov, rfl, rfl⟩

/-- The cells of one row of the scan lie in that row, from left to right. -/
theorem toggledCells_in_order : (toggledCells s x y rows).Pairwise before := by
  rw [toggledCells, List.pairwise_flatMap]
  constructor
  · intro cy _
    refine (List.pairwise_lt_finRange 64).filterMap _ fun a a' left p hp q hq => ?_
    obtain ⟨-, ⟨⟩⟩ := Option.ite_none_right_eq_some.mp hp
    obtain ⟨-, ⟨⟩⟩ := Option.ite_none_right_eq_some.mp hq
    exact .inr ⟨rfl, left⟩
  · refine (List.pairwise_lt_finRange 32).imp fun above p hp q hq => ?_
    obtain ⟨_, -, hp⟩ := List.mem_filterMap.mp hp
    obtain ⟨_, -, hq⟩ := List.mem_filterMap.mp hq
    obtain ⟨-, ⟨⟩⟩ := Option.ite_none_right_eq_some.mp hp
    obtain ⟨-, ⟨⟩⟩ := Option.ite_none_right_eq_some.mp hq
    exact .inl above

theorem covered_iff_mem_spriteCells (p : Fin 64 × Fin 32) :
    covered s x y rows p.1 p.2 = true ↔
      p ∈ spriteCells (originX (s.getV x)) (originY (s.getV y)) (s.bytesAt s.base rows) := by
  simp only [covered, mem_spriteCells, originX, originY, spriteBit, State.bytesAt_length, State.bytesAt_get,
    Bool.and_eq_true, decide_eq_true_eq, exists_prop]
  tauto

/-- The scan of the screen and the walk through the sprite meet the same cells in the same order. -/
theorem toggledCells_eq_spriteCells : toggledCells s x y rows =
    spriteCells (originX (s.getV x)) (originY (s.getV y)) (s.bytesAt s.base rows) :=
  eq_of_in_order toggledCells_in_order (spriteCells_in_order _ _ _) fun p =>
    mem_toggledCells.trans (covered_iff_mem_spriteCells p)

theorem toggledCells_nodup : (toggledCells s x y rows).Nodup :=
  toggledCells_eq_spriteCells ▸ spriteCells_nodup _ _ _

end Cells

/-! ### A draw as a row of toggles -/

section Draw

variable {s : State} {n : Nibble}

theorem height_zero_iff : n.toNat = 0 ↔ n = 0 := (BitVec.toNat_eq (y := 0)).symm

theorem exec_display_fits (x y : Reg) (fits : n = 0 ∨ s.base + n.toNat ≤ 4096) :
    exec (.display x y n) s =
      .next ((toggleAll (toggledCells s x y n.toNat) s).setDisplayChanged true) := by
  have fits' : n.toNat = 0 ∨ s.base + n.toNat ≤ Config.memSize := fits.imp_left height_zero_iff.mpr
  rw [toggledCells_eq_spriteCells]
  show Host.Outcome.next _ = _
  rw [drawRows_fits _ _ _ _ _ fits']
  rfl

theorem exec_display_overruns (x y : Reg) (drawn : n ≠ 0) (past : 4096 < s.base + n.toNat) :
    exec (.display x y n) s =
      .next (takeOutOfRange (max s.base 4096) (toggleAll (toggledCells s x y (4096 - s.base)) s)) := by
  have drawn' : n.toNat ≠ 0 := mt height_zero_iff.mp drawn
  rw [toggledCells_eq_spriteCells]
  show Host.Outcome.next _ = _
  rw [drawRows_overruns _ _ _ _ _ drawn' past]
  rfl

/-- Toggling the cells of a sprite flips the covered cells. -/
theorem toggle_covered_fb (s : State) (x y : Reg) (rows : Nat) (cx : Fin 64) (cy : Fin 32) :
    (toggleAll (toggledCells s x y rows) s).fb.get cx cy = (s.fb.get cx cy != covered s x y rows cx cy) := by
  have listed : decide ((cx, cy) ∈ toggledCells s x y rows) = covered s x y rows cx cy := by
    rw [Bool.eq_iff_iff, decide_eq_true_iff]
    exact mem_toggledCells
  rw [toggleAll_fb _ toggledCells_nodup, listed]

/-- VF after toggling the cells of a sprite: the collision of the last one, if there is one (R226). -/
theorem toggle_covered_flag (s : State) (x y : Reg) (rows : Nat) :
    (toggledCells s x y rows = [] → (toggleAll (toggledCells s x y rows) s).getV 15 = s.getV 15) ∧
    (∀ cells p, toggledCells s x y rows = cells ++ [p] →
      (toggleAll (toggledCells s x y rows) s).getV 15 = if s.fb.get p.1 p.2 then 1 else 0) := by
  have flag : (toggleAll (toggledCells s x y rows) s).getV 15 = _ := toggleAll_flag _ toggledCells_nodup s
  refine ⟨fun none_toggled => ?_, fun cells p last => ?_⟩
  · rw [none_toggled, toggleAll_nil]
  · rw [flag, last, List.getLast?_append, List.getLast?_singleton]
    rfl

end Draw

/-! ### Drawing twice -/

section Twice

variable {s t : State} {x y : Reg} {rows : Nat}

/-- What a sprite covers depends on its origin, on `I` and on memory, not on the screen. -/
theorem covered_congr (hx : t.getV x = s.getV x) (hy : t.getV y = s.getV y) (hi : t.index = s.index)
    (hm : ∀ a, t.byteAt a = s.byteAt a) : covered t x y rows = covered s x y rows := by
  have base : t.base = s.base := congrArg BitVec.toNat hi
  funext cx cy
  simp only [covered, hx, hy, base, hm]

theorem toggledCells_congr (h : covered t x y rows = covered s x y rows) :
    toggledCells t x y rows = toggledCells s x y rows := by
  simp only [toggledCells, h]

end Twice

/-- Settles O39: a blank buffer, whatever it held. -/
theorem clearBlanksTheFramebuffer : Obligations.ClearBlanksTheFramebuffer :=
  fun _ => ⟨rfl, _, rfl, Framebuffer.get_blank, rfl, rfl, fun _ => rfl⟩

/-- Settles O40: a draw that fits is a row of toggles and a report. -/
theorem displayFlipsExactlyTheSprite : Obligations.DisplayFlipsExactlyTheSprite := by
  intro x y n s
  refine ⟨decode_encode (.display x y n), fun fits => ⟨_, exec_display_fits x y fits, ?_, ?_, ?_, ?_⟩⟩
  · exact toggle_covered_fb s x y n.toNat
  · rw [toggleAll_frame]; rfl
  · exact fun r other => toggleAll_getV _ s other
  · exact toggleAll_byteAt _ s

/-- Settles O41: the report after the toggles leaves VF. -/
theorem displayLeavesTheLastCollisionInVF : Obligations.DisplayLeavesTheLastCollisionInVF := by
  intro x y n s t fits ht
  rw [exec_display_fits x y fits] at ht
  cases ht
  exact toggle_covered_flag s x y n.toNat

/-- Settles O42: the toggles of the rows that exist, then the fault. -/
theorem displayPastTheEndOfMemoryFaults : Obligations.DisplayPastTheEndOfMemoryFaults := by
  intro x y n s drawn past
  refine ⟨_, exec_display_overruns x y drawn past, ?_, ?_, ?_, ?_⟩
  · exact toggle_covered_fb s x y (4096 - s.base)
  · rw [toggleAll_frame]; rfl
  · exact fun r other => toggleAll_getV _ s other
  · exact toggle_covered_flag s x y (4096 - s.base)

/-- Settles O43: the second draw toggles the cells of the first, each now the opposite of what it was. -/
theorem drawingTwiceRestoresTheFramebuffer : Obligations.DrawingTwiceRestoresTheFramebuffer := by
  intro x y n s t u fits ht hx hy hu
  rw [exec_display_fits x y fits] at ht
  cases ht
  set t := (toggleAll (toggledCells s x y n.toNat) s).setDisplayChanged true with t_def
  have t_index : t.index = s.index := by rw [t_def, toggleAll_frame]; rfl
  have same_sprite : covered t x y n.toNat = covered s x y n.toNat :=
    covered_congr hx hy t_index (toggleAll_byteAt _ s)
  have same_cells := toggledCells_congr same_sprite
  have fits' : n = 0 ∨ t.base + n.toNat ≤ 4096 := by rwa [State.base, t_index]
  rw [exec_display_fits x y fits'] at hu
  cases hu
  have flipped : ∀ cx cy, t.fb.get cx cy = (s.fb.get cx cy != covered s x y n.toNat cx cy) :=
    toggle_covered_fb s x y n.toNat
  refine ⟨Framebuffer.ext_get fun cx cy => ?_, fun ⟨cx, cy, cov⟩ unlit => ?_⟩
  · refine (toggle_covered_fb t x y n.toNat cx cy).trans ?_
    rw [flipped, same_sprite]
    cases s.fb.get cx cy <;> cases covered s x y n.toNat cx cy <;> rfl
  · have toggled : toggledCells s x y n.toNat ≠ [] := List.ne_nil_of_mem (mem_toggledCells (p := (cx, cy)).mpr cov)
    obtain ⟨cells, p, last⟩ := (List.eq_nil_or_concat' _).resolve_left toggled
    have p_cov : covered s x y n.toNat p.1 p.2 = true := mem_toggledCells.mp (by rw [last]; simp)
    have first := (toggle_covered_flag s x y n.toNat).2 cells p last
    have second := (toggle_covered_flag t x y n.toNat).2 cells p (same_cells.trans last)
    rw [unlit _ _ p_cov] at first
    rw [flipped, p_cov, unlit _ _ p_cov] at second
    exact ⟨first, second⟩

end Sys2Proof.Claims
end

section
/-! Noninterference (spec/10_state.md sections 5 and 8, spec/40_machine_cycle.md section 2): what a view hides never
reaches what it shows. Both claims are about one notion: an operation is `Blind` to what the view hides when the view of
its result can be computed from the view of the state. -/

namespace Sys2Proof.Claims

open Sys2Proof.Machine

/-- The two views of the claims: all but the sound timer, and all but `dirty`, `display_changed` and the outputs. -/
inductive View where
  | withoutSound
  | visible

/-- What a view shows of a state. -/
def View.of : View → State → State
  | .withoutSound => Claims.withoutSound
  | .visible => Claims.visible

/-- What a view shows of an outcome: of a next state its view, of a stop its reason. -/
def View.ofOutcome (k : View) : Host.Outcome State Fault Refusal → Host.Outcome State Fault Refusal
  | .next t => .next (k.of t)
  | .fault f => .fault f
  | .refused r => .refused r

theorem sameOutcome_iff (k : View) (o p : Host.Outcome State Fault Refusal) :
    SameOutcome k.of o p ↔ k.ofOutcome o = k.ofOutcome p := by
  cases o <;> cases p <;> simp [SameOutcome, View.ofOutcome]

/-- The view of the result depends on the view of the state alone. -/
def Blind (k : View) (op : State → State) : Prop := ∀ s, k.of (op s) = k.of (op (k.of s))

/-- The same for an operation that may stop. -/
def BlindStep (k : View) (op : State → Host.Outcome State Fault Refusal) : Prop :=
  ∀ s, k.ofOutcome (op s) = k.ofOutcome (op (k.of s))

section Fields

variable (k : View) (s : State)

/-! ### What every view shows -/

@[simp] theorem View.of_getV (r : Reg) : (k.of s).getV r = s.getV r := by cases k <;> rfl
@[simp] theorem View.of_base : (k.of s).base = s.base := by cases k <;> rfl
@[simp] theorem View.of_pc : (k.of s).pc = s.pc := by cases k <;> rfl
@[simp] theorem View.of_stack : (k.of s).stack = s.stack := by cases k <;> rfl
@[simp] theorem View.of_fb : (k.of s).fb = s.fb := by cases k <;> rfl
@[simp] theorem View.of_fault : (k.of s).fault = s.fault := by cases k <;> rfl
@[simp] theorem View.of_loadError : (k.of s).loadError = s.loadError := by cases k <;> rfl
@[simp] theorem View.of_input : (k.of s).input = s.input := by cases k <;> rfl
@[simp] theorem View.of_anyKey : (k.of s).anyKey = s.anyKey := by cases k <;> rfl
@[simp] theorem View.of_canFetch : (k.of s).canFetch = s.canFetch := by cases k <;> rfl
@[simp] theorem View.of_fetched : (k.of s).fetched = s.fetched := by cases k <;> rfl

@[simp] theorem View.of_pressed (b : Byte) : (k.of s).pressed b = s.pressed b := by cases k <;> rfl

@[simp] theorem View.of_valuesThrough (x : Reg) : (k.of s).valuesThrough x = s.valuesThrough x :=
  List.map_congr_left fun r _ => k.of_getV s r

theorem View.of_toggledCells (x y : Reg) (rows : Nat) :
    toggledCells (k.of s) x y rows = toggledCells s x y rows := by cases k <;> rfl

end Fields

section Blindness

variable {k : View}

/-! ### Operations that are blind, and their compositions -/

theorem Blind.id : Blind k fun s => s := fun _ => by cases k <;> rfl

theorem Blind.comp {f g : State → State} (hg : Blind k g) (hf : Blind k f) : Blind k fun s => g (f s) := fun s =>
  calc k.of (g (f s)) = k.of (g (k.of (f s))) := hg _
    _ = k.of (g (k.of (f (k.of s)))) := by rw [hf]
    _ = k.of (g (f (k.of s))) := (hg _).symm

/-- An operation that always completes. -/
theorem Blind.next {f : State → State} (hf : Blind k f) : BlindStep k fun s => .next (f s) := fun s =>
  congrArg Host.Outcome.next (hf s)

theorem BlindStep.comp {g : State → Host.Outcome State Fault Refusal} {f : State → State} (hg : BlindStep k g)
    (hf : Blind k f) : BlindStep k fun s => g (f s) := fun s =>
  calc k.ofOutcome (g (f s)) = k.ofOutcome (g (k.of (f s))) := hg _
    _ = k.ofOutcome (g (k.of (f (k.of s)))) := by rw [hf]
    _ = k.ofOutcome (g (f (k.of s))) := (hg _).symm

/-- States with the same view go to outcomes with the same view. -/
theorem BlindStep.congr {op : State → Host.Outcome State Fault Refusal} (h : BlindStep k op) {s u : State}
    (same : k.of s = k.of u) : SameOutcome k.of (op s) (op u) := by
  rw [sameOutcome_iff, h s, h u, same]

theorem setV_blind (r : Reg) (b : Byte) : Blind k fun s => s.setV r b := fun _ => by cases k <;> rfl

theorem setPc_blind (a : Word) : Blind k fun s => s.setPc a := fun _ => by cases k <;> rfl

theorem setStack_blind (l : List Word) : Blind k fun s => s.setStack l := fun _ => by cases k <;> rfl

theorem setFb_blind (f : Framebuffer) : Blind k fun s => s.setFb f := fun _ => by cases k <;> rfl

theorem setDisplayChanged_blind (b : Bool) : Blind k fun s => s.setDisplayChanged b := fun _ => by cases k <;> rfl

theorem takeFault_blind (c : FaultCode) : Blind k (takeFault c) := fun _ => by cases k <;> rfl

theorem takeOutOfRange_blind (a : Nat) : Blind k (takeOutOfRange a) := fun _ => by cases k <;> rfl

theorem skipIf_blind (c : Bool) : Blind k (skipIf c) := fun _ => by cases c <;> cases k <;> rfl

/-! ### The loops -/

theorem storeBytes_blind (bs : List Byte) (a : Nat) : Blind k fun s => (storeBytes a bs s).final := by
  induction bs generalizing a with
  | nil => exact .id
  | cons b bs ih =>
    by_cases h : a < Config.memSize
    · have write : Blind k fun s => s.setMem (s.mem.write a b) := fun _ => by cases k <;> rfl
      simpa only [storeBytes, memWrite_inRange _ h, Flow.andThen_done] using (ih (a + 1)).comp write
    · simpa only [storeBytes, memWrite_outOfRange _ (Nat.not_lt.mp h), Flow.andThen_raised, Flow.final_raised] using
        takeOutOfRange_blind a

theorem loadRegs_blind (base : Nat) (rs : List Reg) : Blind k fun s => (loadRegs base rs s).final := by
  induction rs with
  | nil => exact .id
  | cons r rs ih =>
    by_cases h : base + r < Config.memSize
    · have load : Blind k fun s => s.setV r (s.byteAt (base + r)) := fun _ => by cases k <;> rfl
      simpa only [loadRegs, memRead_inRange _ h, Flow.andThen_done] using ih.comp load
    · simpa only [loadRegs, memRead_outOfRange _ (Nat.not_lt.mp h), Flow.andThen_raised, Flow.final_raised] using
        takeOutOfRange_blind (base + r)

theorem togglePixel_blind (x : Fin 64) (y : Fin 32) : Blind k (togglePixel x y) := fun s => by
  rw [togglePixel_eq, togglePixel_eq, View.of_fb]
  exact (setV_blind _ _).comp (setFb_blind _) s

theorem toggleAll_blind (ps : List (Fin 64 × Fin 32)) : Blind k (toggleAll ps) := by
  induction ps with
  | nil => exact .id
  | cons p ps ih => exact ih.comp (togglePixel_blind p.1 p.2)

/-! ### One instruction -/

theorem execCall_blind (a : Addr) : BlindStep k (exec (.call a)) := fun s => by
  show k.ofOutcome (.next (Flow.final _)) = k.ofOutcome (.next (Flow.final _))
  by_cases room : s.stack.length < Config.stackDepth
  · rw [push_room s room, push_room (k.of s) (by rwa [View.of_stack]), View.of_stack, View.of_pc]
    exact ((setPc_blind _).comp (setStack_blind _)).next s
  · rw [push_full s (by omega), push_full (k.of s) (by rw [View.of_stack]; omega)]
    exact (takeFault_blind _).next s

theorem execRet_blind : BlindStep k (exec .ret) := fun s => by
  show k.ofOutcome (.next (Flow.final _)) = k.ofOutcome (.next (Flow.final _))
  rcases List.eq_nil_or_concat' s.stack with empty | ⟨l, a, newest⟩
  · rw [pop_empty s empty, pop_empty (k.of s) ((k.of_stack s).trans empty)]
    exact (takeFault_blind _).next s
  · rw [pop_append s newest, pop_append (k.of s) ((k.of_stack s).trans newest)]
    exact ((setPc_blind _).comp (setStack_blind _)).next s

theorem execDisplay_blind (x y : Reg) (n : Nibble) : BlindStep k (exec (.display x y n)) := fun s => by
  by_cases fits : n = 0 ∨ s.base + n.toNat ≤ 4096
  · rw [exec_display_fits x y fits, exec_display_fits x y (by rwa [View.of_base]), View.of_toggledCells]
    exact ((setDisplayChanged_blind true).comp (toggleAll_blind _)).next s
  · obtain ⟨drawn, past⟩ := not_or.mp fits
    rw [exec_display_overruns x y drawn (by omega), exec_display_overruns x y drawn (by rw [View.of_base]; omega),
      View.of_toggledCells, View.of_base]
    exact ((takeOutOfRange_blind _).comp (toggleAll_blind _)).next s

theorem execWaitForKey_blind (x : Reg) : BlindStep k (exec (.waitForKey x)) := fun s => by
  simp only [exec, execWaitForKey, View.of_anyKey, View.of_pc]
  cases s.anyKey with
  | some key => exact (setV_blind _ _).next s
  | none => exact (setPc_blind _).next s

theorem exec_blind (i : Instr) : BlindStep k (exec i) := by
  cases i with
  | call a => exact execCall_blind a
  | ret => exact execRet_blind
  | display x y n => exact execDisplay_blind x y n
  | waitForKey x => exact execWaitForKey_blind x
  | skipEqVal | skipNeVal =>
    intro s
    simp only [exec, execSkipEqVal, execSkipNeVal, View.of_getV]
    exact (skipIf_blind _).next s
  | skipEqReg | skipNeReg =>
    intro s
    simp only [exec, execSkipEqReg, execSkipNeReg, View.of_getV]
    exact (skipIf_blind _).next s
  | skipIfKey | skipIfNotKey =>
    intro s
    simp only [exec, execSkipIfKey, execSkipIfNotKey, View.of_getV, View.of_pressed]
    exact (skipIf_blind _).next s
  | binToDec =>
    intro s
    simp only [exec, execBinToDec, View.of_getV, View.of_base]
    exact (storeBytes_blind _ _).next s
  | storeMem =>
    intro s
    simp only [exec, execStoreMem, View.of_valuesThrough, View.of_base]
    exact (storeBytes_blind _ _).next s
  | loadMem =>
    intro s
    simp only [exec, execLoadMem, View.of_base]
    exact (loadRegs_blind _ _).next s
  | _ => exact Blind.next fun _ => by cases k <;> rfl

/-! ### One step -/

theorem advance_blind : Blind k State.advance := fun _ => by cases k <;> rfl

theorem nextInput_blind : Blind k State.nextInput := fun _ => by cases k <;> rfl

theorem latchDirty_blind : Blind k latchDirty := fun s => by
  rw [latchDirty_eq, latchDirty_eq]
  cases k <;> rfl

theorem timerTick_blind : Blind k timerTick := fun s => by
  rw [timerTick_eq, timerTick_eq]
  cases k <;> rfl

theorem resetTurn_blind (image : List Byte) : Blind k (resetTurn image) := fun _ => by cases k <;> rfl

/-- A continuation that works on next states with a blind operation. -/
theorem BlindStep.andThen {op : State → Host.Outcome State Fault Refusal} (hop : BlindStep k op)
    {F : Host.Outcome State Fault Refusal → Host.Outcome State Fault Refusal} {f : State → State} (hf : Blind k f)
    (next : ∀ t, F (.next t) = .next (f t)) : BlindStep k fun s => F (op s) := fun s => by
  have through_view : ∀ o, k.ofOutcome (F o) = k.ofOutcome (F (k.ofOutcome o)) := fun o => by
    cases o with
    | next t => rw [View.ofOutcome, next, next]; exact hf.next t
    | fault | refused => rfl
  show k.ofOutcome (F (op s)) = k.ofOutcome (F (op (k.of s)))
  rw [through_view, hop, ← through_view]

theorem runWord_blind (w : Word) : BlindStep k (runWord w) := by
  unfold runWord
  cases decode w with
  | ok i => exact (exec_blind i).andThen latchDirty_blind fun _ => rfl
  | error e => exact Blind.next fun _ => by cases k <;> rfl

theorem instructionStep_blind : BlindStep k instructionStep := fun s => by
  simp only [instructionStep, View.of_canFetch, View.of_fetched, View.of_pc]
  split
  · exact (runWord_blind _).comp advance_blind s
  · exact (takeOutOfRange_blind _).next s

theorem instructionTurn_blind : BlindStep k instructionTurn := fun s => by
  simp only [instructionTurn, View.of_loadError, View.of_fault, View.of_input]
  split
  · rfl
  · split
    · rfl
    · split
      · rfl
      · exact instructionStep_blind s

/-- Whose turn it is, is an input, which every view shows. -/
theorem step_blind : BlindStep k step := by
  refine BlindStep.andThen (F := takeInput) (fun s => ?_) nextInput_blind fun _ => rfl
  rw [View.of_input]
  cases s.input.turn with
  | instruction => exact instructionTurn_blind s
  | timer => exact timerTick_blind.next s
  | reset image => exact (resetTurn_blind image).next s

end Blindness

/-- Settles O54: every step is blind to the sound timer. -/
theorem soundTimerAffectsNothing : Obligations.SoundTimerAffectsNothing :=
  fun _ _ same => (step_blind (k := .withoutSound)).congr same

/-- Settles O55: every step is blind to `dirty`, `display_changed` and the record of outputs. -/
theorem hiddenStateIsInvisible : Obligations.HiddenStateIsInvisible :=
  fun _ _ same => (step_blind (k := .visible)).congr same

end Sys2Proof.Claims
end

section
/-! The machine cycle (spec/40_machine_cycle.md R121, R122, R128, R131) and reset (spec/70_reset_and_hazards.md): what a
step is on each agent's turn, and what a boot leaves. -/

namespace Sys2Proof.Claims

open Sys2Proof.Machine

/-! ### A step, by whose turn it is -/

section Turns

variable {s : State}

theorem step_instruction (turn : s.input.turn = .instruction) : step s = takeInput (instructionTurn s) := by
  simp only [step, move, turn]

theorem step_timer (turn : s.input.turn = .timer) : step s = .next (timerTick s).nextInput := by
  simp only [step, move, turn, takeInput]

theorem step_reset {image : List Byte} (turn : s.input.turn = .reset image) :
    step s = .next (resetTurn image s).nextInput := by
  simp only [step, move, turn, takeInput]

theorem step_enabled (turn : s.input.turn = .instruction) (close : s.input.close = false) (latch : s.fault = none)
    (accepted : s.loadError = false) : step s = takeInput (instructionStep s) := by
  rw [step_instruction turn, instructionTurn_enabled accepted latch close]

/-- An enabled turn whose fetch is in range runs the word at the pc from the advanced state. -/
theorem step_fetches (h : Fetches s) : step s = takeInput (runWord (wordAtPc s) s.advance) := by
  obtain ⟨turn, close, latch, accepted, inRange⟩ := h
  have fetch : s.canFetch = true := decide_eq_true inRange
  rw [step_enabled turn close latch accepted, instructionStep, if_pos fetch]
  rfl

theorem step_fetches_ok {i : Instr} {t : State} (h : Fetches s) (hd : decode (wordAtPc s) = .ok i)
    (ht : exec i s.advance = .next t) : step s = .next (latchDirty t).nextInput := by
  rw [step_fetches h, runWord_ok hd, ht]
  rfl

/-- A run of one more step goes on from the state its first step answers. -/
theorem run_succ {t : State} (h : step s = .next t) (n : Nat) :
    Host.Core.run Sys2Proof.core (n + 1) s = Host.Core.run Sys2Proof.core n t := by
  have first : Sys2Proof.core.step s = .next t := h
  simp only [Host.Core.run, first]

theorem canFetch_eq_false_iff : s.canFetch = false ↔ 4096 ≤ s.pc.toNat + 1 := by
  rw [State.canFetch, decide_eq_false_iff_not, Nat.not_lt]
  rfl

end Turns

/-- Settles O7: every instruction completes, and the step hands its state on. -/
theorem stepRunsTheDecodedInstruction : Obligations.StepRunsTheDecodedInstruction := by
  intro s i fetches hd
  obtain ⟨t, ht, e⟩ := exec_effect s.advance i
  obtain ⟨feed, samples, -, -⟩ := e.untouched
  refine ⟨t, ht, ?_⟩
  rw [step_fetches_ok fetches hd ht, latchDirty_eq, State.nextInput, feed, samples]
  rfl

/-- Settles O8: the miss carries the word itself, and the advanced state differs by the report. -/
theorem decodeMissIsReportedAndSkipped : Obligations.DecodeMissIsReportedAndSkipped := by
  intro s e fetches hd
  rw [step_fetches fetches, runWord_miss hd]
  rfl

/-- Settles O9: the enabled turn raises at the fetch. -/
theorem fetchOutOfRangeLatchesTheFault : Obligations.FetchOutOfRangeLatchesTheFault := by
  intro s turn close latch accepted past
  have no_fetch : ¬ s.canFetch = true := by rw [canFetch_eq_false_iff.mpr past]; exact Bool.false_ne_true
  rw [step_enabled turn close latch accepted, instructionStep, if_neg no_fetch]
  rfl

theorem step_loadRefused {s : State} (turn : s.input.turn = .instruction) (refused : s.loadError = true) :
    step s = .fault .loadRefused := by
  rw [step_instruction turn, instructionTurn, if_pos refused]
  rfl

/-- A turn after an accepted load that finds `close` signalled stops, unless a latched fault stops it first. -/
theorem step_closed {s : State} (turn : s.input.turn = .instruction) (accepted : s.loadError = false)
    (latch : s.fault = none) (close : s.input.close = true) : step s = .fault .closed := by
  rw [step_instruction turn]
  simp [instructionTurn, accepted, latch, close, takeInput]

/-- Settles O10: each test of the instruction turn in its order. -/
theorem instructionTurnStopsWhenNotEnabled : Obligations.InstructionTurnStopsWhenNotEnabled := by
  intro s turn
  refine ⟨step_loadRefused turn, fun c accepted latch => ?_, step_closed turn⟩
  rw [step_instruction turn]
  simp [instructionTurn, accepted, latch, takeInput]

/-- Settles O11: of the moves a step can make, an instruction needs a clear latch, and a timer tick keeps it. -/
theorem onlyResetClearsTheFaultLatch : Obligations.OnlyResetClearsTheFaultLatch := by
  intro s t c latch h
  rcases step_cases h with ⟨image, turn, -⟩ | ⟨-, rfl⟩ | ⟨-, -, clear, -⟩
  · exact .inl ⟨image, turn⟩
  · rw [timerTick_eq]
    exact .inr ⟨latch, rfl⟩
  · rw [latch] at clear
    cases clear

/-- Settles O12: by the equation of the timer tick. -/
theorem timerTickCountsDownAndPresents : Obligations.TimerTickCountsDownAndPresents := by
  intro s turn
  rw [step_timer turn, timerTick_eq]
  rfl

/-- Settles O13: one tick takes one from each timer and one input from the feed. -/
theorem timersReachZeroAfterEnoughTicks : Obligations.TimersReachZeroAfterEnoughTicks := by
  intro ticks rest s all_ticks feed
  induction ticks generalizing s with
  | nil => exact ⟨s, rfl, rfl, rfl, feed, rfl⟩
  | cons f ticks ih =>
    have turn : s.input.turn = .timer := by
      rw [State.input, feed]
      exact all_ticks f (by simp)
    have feed_left : (timerTick s).nextInput.feed = ticks ++ rest := by
      rw [State.nextInput_feed, timerTick_eq, feed]
      rfl
    obtain ⟨t, run, dt, st, feed_end, frame⟩ := ih _ (fun g hg => all_ticks g (by simp [hg])) feed_left
    rw [timerTick_eq] at dt st frame
    refine ⟨t, (run_succ (step_timer turn) _).trans run, ?_, ?_, feed_end, frame⟩
    · rw [dt, List.length_cons, State.nextInput_dt, countDown_toNat]
      omega
    · rw [st, List.length_cons, State.nextInput_st, countDown_toNat]
      omega

/-! ### Reset -/

/-- The font bytes at their addresses (spec/20_memory.md R67). -/
theorem initialByte_font (k : Nat) (h : k < fontData.length) : initialByte (0x50 + k) = fontData[k] := by
  have from_base : fontBase ≤ 0x50 + k := Nat.le_add_right _ _
  have offset : 0x50 + k - fontBase = k := Nat.add_sub_cancel_left ..
  rw [initialByte, if_pos from_base, offset, List.getD_eq_getElem _ _ h]

/-- Every byte outside the font is 0x00 (spec/20_memory.md R69). -/
theorem initialByte_zero (a : Nat) (h : a < 0x50 ∨ 0xA0 ≤ a) : initialByte a = 0 := by
  have length : fontData.length = 80 := rfl
  unfold initialByte
  split
  · rename_i from_base
    have past : fontData.length ≤ a - fontBase := by
      simp only [fontBase] at from_base ⊢
      omega
    exact List.getD_eq_default _ _ past
  · rfl

/-- Settles O14: registers and latches by definition, the bytes by the reset contents. -/
theorem resetStateIsAsSpecified : Obligations.ResetStateIsAsSpecified := by
  have registers : ∀ r, State.reset.getV r = 0 := fun r => by simp [State.reset, State.getV]
  exact ⟨registers, rfl, rfl, rfl, rfl, rfl, Framebuffer.get_blank, rfl, rfl, rfl, rfl, initialByte_font,
    initialByte_zero⟩

/-- Settles O15: the image is a run of bytes written from 0x200 on. -/
theorem resetLoadsTheImageAndStartsANewRun : Obligations.ResetLoadsTheImageAndStartsANewRun := by
  intro s image turn length
  have fits : imageFits image = true := decide_eq_true length
  have bytes : ∀ a, (resetTurn image s).nextInput.byteAt a = _ := fun a =>
    (congrArg (·.read a) (boot_mem_fits fits)).trans (Memory.read_writeList image _ Config.progBase a)
  refine ⟨_, step_reset turn, ?_, fun k hk => ?_, fun a outside => ?_⟩
  · rw [resetTurn, boot_fits fits]
    rfl
  · have inside : Config.progBase ≤ 0x200 + k ∧ 0x200 + k < Config.progBase + image.length := by
      simp only [Config.progBase]
      omega
    have offset : 0x200 + k - Config.progBase = k := Nat.add_sub_cancel_left ..
    rw [bytes, dif_pos inside]
    simp only [offset]
  · have not_inside : ¬ (Config.progBase ≤ a ∧ a < Config.progBase + image.length) := by
      simp only [Config.progBase]
      omega
    rw [bytes, dif_neg not_inside]
    rfl

/-- Settles O16: the refused boot, and the turn it disables. -/
theorem oversizeImageIsRefused : Obligations.OversizeImageIsRefused := by
  intro s image turn length
  have refused : imageFits image = false := decide_eq_false (Nat.not_le.mpr length)
  refine ⟨?_, fun u error turn => step_loadRefused turn error⟩
  rw [step_reset turn, resetTurn, boot_refused refused]
  rfl

end Sys2Proof.Claims
end

section
/-! One instruction at a time (spec/41_control_flow.md, spec/42_alu.md, spec/43_index_memory.md,
spec/45_keys_timers.md). The frames of the shared writes come first; each instruction then adds its own value. -/

namespace Sys2Proof.Machine

section Values

/-! ### The values the instructions compute, as numbers -/

theorem flagByte_toNat (c : Bool) : (flagByte c).toNat = if c = true then 1 else 0 := by cases c <;> rfl

variable (a b : Byte)

/-- R177: the carry is the ninth bit of the exact sum. -/
theorem carry_iff : carry a b = true ↔ 256 ≤ a.toNat + b.toNat := by
  rw [carry, decide_eq_true_iff, Nat.lt_iff_add_one_le]

theorem noBorrow_iff : noBorrow a b = true ↔ b.toNat ≤ a.toNat := decide_eq_true_iff

/-- R178, R180: a difference that borrows is 256 more. -/
theorem sub_toNat : (a - b).toNat = if b.toNat ≤ a.toNat then a.toNat - b.toNat else a.toNat + 256 - b.toNat := by
  rw [BitVec.toNat_sub]
  split <;> omega

/-- R179: the bit shifted out to the right is the parity. -/
theorem flagByte_lowBit : (flagByte (lowBit b)).toNat = b.toNat % 2 := by
  revert b
  decide

/-- R181: the bit shifted out to the left is worth 128. -/
theorem flagByte_highBit : (flagByte (highBit b)).toNat = b.toNat / 128 := by
  revert b
  decide

theorem shiftRight_toNat : (b >>> 1).toNat = b.toNat / 2 := by
  rw [BitVec.toNat_ushiftRight, Nat.shiftRight_eq_div_pow, Nat.pow_one]

theorem shiftLeft_toNat : (b <<< 1).toNat = 2 * b.toNat % 256 := by
  rw [BitVec.toNat_shiftLeft, Nat.shiftLeft_eq, Nat.pow_one, Nat.mul_comm]

/-- A byte without a bit outside the mask is its own masked value. -/
theorem and_eq_self_of_and_not_eq_zero {b nn : Byte} (masked : b &&& ~~~nn = 0) : b &&& nn = b := by
  apply BitVec.eq_of_getLsbD_eq
  intro k hk
  have bit := congrArg (·.getLsbD k) masked
  simp only [BitVec.getLsbD_and, BitVec.getLsbD_not, hk, decide_true, Bool.true_and] at bit ⊢
  cases hb : b.getLsbD k <;> simp_all

/-- R203: the largest glyph address, 0x50 + 5 × 255, is still a word. -/
theorem glyphAddress_toNat : (glyphAddress b).toNat = 0x50 + 5 * b.toNat := by
  rw [glyphAddress, BitVec.toNat_ofNat, fontBase, glyphBytes]
  omega

end Values

/-! ### The key port (R126) -/

section Keys

variable (s : State)

/-- R247: a value of 16 or more is no key. -/
theorem pressed_iff (b : Byte) :
    s.pressed b = true ↔ b.toNat ≤ 15 ∧ s.input.keyDown.getLsbD b.toNat = true := by
  unfold State.pressed
  split
  · rename_i key
    simp [State.isKeyDown, Nat.le_of_lt_succ key]
  · rename_i no_key
    have not_le : ¬ b.toNat ≤ 15 := by omega
    simp [not_le]

theorem anyKey_down {k : Reg} (h : s.anyKey = some k) : s.input.keyDown.getLsbD k = true := by
  unfold State.anyKey at h
  split at h
  · cases h; assumption
  · exact lowestKey_some h

theorem anyKey_none_iff : s.anyKey = none ↔ s.input.keyDown = 0 := by
  constructor
  · intro h
    unfold State.anyKey at h
    split at h
    · cases h
    · exact BitVec.eq_of_getLsbD_eq fun k hk =>
        (lowestKey_none.mp h ⟨k, hk⟩).trans BitVec.getLsbD_zero.symm
  · intro none_down
    have not_down : ∀ k : Reg, s.input.keyDown.getLsbD k = false := fun k => by
      rw [none_down]
      exact BitVec.getLsbD_zero
    have not_picked : ¬ s.isKeyDown s.input.keyPick = true := by
      rw [State.isKeyDown, not_down]
      exact Bool.false_ne_true
    rw [State.anyKey, if_neg not_picked]
    exact lowestKey_none.mpr not_down

/-- Any pressed key can be the one the input source picks (D18; log 3). -/
theorem anyKey_of_pick {k : Reg} (pick : s.input.keyPick = k) (down : s.input.keyDown.getLsbD k = true) :
    s.anyKey = some k := by
  subst pick
  exact if_pos down

end Keys

end Sys2Proof.Machine

namespace Sys2Proof.Claims

open Sys2Proof.Machine

/-! ### Frames of the shared writes -/

section Frames

variable {i : Instr} {s : State} {x : Reg}

theorem onlyRegisters_setV (s : State) (x : Reg) (b : Byte) : OnlyRegisters (fun r => r = x) s (s.setV x b) :=
  ⟨fun r other => (State.setV_getV s x r b).trans (if_neg other), rfl, fun _ => rfl⟩

theorem writesRegister_of_setV {b : Byte} (h : exec i s = .next (s.setV x b)) : WritesRegister i s x b :=
  ⟨_, h, State.setV_getV_same s x b, onlyRegisters_setV s x b⟩

/-- The flag stands in VF whatever `x` is; the result stands in `x` unless the flag has replaced it (D9). -/
theorem writesRegisterAndFlag_of_writeWithFlag {b : Byte} {c : Bool} {result flag : Nat}
    (h : exec i s = .next (writeWithFlag x b c s)) (hb : b.toNat = result) (hc : (flagByte c).toNat = flag) :
    WritesRegisterAndFlag i s x result flag := by
  refine ⟨_, h, fun not_flag => ?_, ?_, fun r other => ?_, writeWithFlag_frame s x b c, fun _ => rfl⟩
  · rw [writeWithFlag_getV, flagReg, if_neg not_flag, if_pos rfl, hb]
  · rw [writeWithFlag_getV, flagReg, if_pos rfl, hc]
  · obtain ⟨not_dest, not_flag⟩ := not_or.mp other
    rw [writeWithFlag_getV, flagReg, if_neg not_flag, if_neg not_dest]

theorem skipsWhen_of_skipIf {c : Bool} {C : Prop} (h : exec i s = .next (skipIf c s)) (hc : c = true ↔ C) :
    SkipsWhen i s C := by
  refine ⟨_, h, fun holds => ?_, fun fails => ?_, ?_⟩
  · rw [skipIf, if_pos (hc.mpr holds), State.setPc_pc]
  · rw [skipIf, if_neg (mt hc.mp fails)]
  · cases c <;> exact ⟨rfl, fun _ => rfl⟩

theorem onlyPc_setPc (s : State) (p : Word) : OnlyPc s (s.setPc p) := ⟨rfl, fun _ => rfl⟩

theorem onlyIndex_setIndex (s : State) (a : Word) : OnlyIndex s (s.setIndex a) := ⟨rfl, fun _ => rfl⟩

end Frames

/-! ### Control flow -/

/-- Settles O19: a 12-bit address is the pc; 0xFFF has no second byte. -/
theorem jumpLoadsThePc : Obligations.JumpLoadsThePc := by
  intro a s
  refine ⟨decode_encode (.jump a), _, rfl, zextAddr_toNat a, onlyPc_setPc s _, fun last => ?_⟩
  rw [canFetch_eq_false_iff, State.setPc_pc, zextAddr_toNat, last]
  decide

/-- Settles O20: the sum as a number. -/
theorem jumpOffsetAddsV0 : Obligations.JumpOffsetAddsV0 := by
  intro a s
  refine ⟨decode_encode (.jumpOffset a), _, rfl, jumpOffset_toNat a _, onlyPc_setPc s _, fun past => ?_⟩
  rw [canFetch_eq_false_iff, State.setPc_pc, jumpOffset_toNat]
  omega

theorem exec_call_room {s : State} (a : Addr) (room : s.stack.length < Config.stackDepth) :
    exec (.call a) s = .next ((s.setStack (s.stack ++ [s.pc])).setPc (zextAddr a)) := by
  simp only [exec, execCall, push_room s room, Flow.andThen_done, Flow.final_done]

theorem exec_ret_of_append {s : State} {l : List Word} {a : Word} (newest : s.stack = l ++ [a]) :
    exec .ret s = .next ((s.setStack l).setPc a) := by
  simp only [exec, execRet, pop_append s newest, Flow.andThen_done, Flow.final_done]

/-- Settles O21: by the two outcomes of the push. -/
theorem callPushesAndJumpsOrOverflows : Obligations.CallPushesAndJumpsOrOverflows := by
  intro a s
  refine ⟨decode_encode (.call a), fun room => ?_, fun full => ?_⟩
  · exact ⟨_, exec_call_room a room, zextAddr_toNat a, rfl, fun _ => rfl⟩
  · simp only [exec, execCall, push_full s full.ge, Flow.andThen_raised, Flow.final_raised, takeFault_eq]

/-- Settles O22: by the two outcomes of the pop. -/
theorem returnPopsOrUnderflows : Obligations.ReturnPopsOrUnderflows := by
  intro s
  refine ⟨rfl, fun l a newest => ?_, fun empty => ?_⟩
  · exact ⟨_, exec_ret_of_append newest, rfl, fun _ => rfl⟩
  · simp only [exec, execRet, pop_empty s empty, Flow.andThen_raised, Flow.final_raised, takeFault_eq]

/-- Settles O23: the pop takes back what the push put there. -/
theorem returnUndoesTheCall : Obligations.ReturnUndoesTheCall := by
  intro a s t room ht
  rw [exec_call_room a room] at ht
  cases ht
  exact exec_ret_of_append rfl

/-- Settles O25: the Boolean of each skip is its condition. -/
theorem compareSkipsSkipOnTheirCondition : Obligations.CompareSkipsSkipOnTheirCondition := by
  intro x y nn s
  exact ⟨⟨decode_encode (.skipEqVal x nn), skipsWhen_of_skipIf rfl beq_iff_eq⟩,
    ⟨decode_encode (.skipNeVal x nn), skipsWhen_of_skipIf rfl bne_iff_ne⟩,
    ⟨decode_encode (.skipEqReg x y), skipsWhen_of_skipIf rfl beq_iff_eq⟩,
    ⟨decode_encode (.skipNeReg x y), skipsWhen_of_skipIf rfl bne_iff_ne⟩⟩

/-! ### ALU -/

/-- Settles O26: three register writes, the sum reduced modulo 256 as bytes are. -/
theorem loadCopyAndPlainAddWriteOneRegister : Obligations.LoadCopyAndPlainAddWriteOneRegister := by
  intro x y nn s
  have sum : s.getV x + nn = BitVec.ofNat 8 (((s.getV x).toNat + nn.toNat) % 256) := by
    apply BitVec.eq_of_toNat_eq
    rw [BitVec.toNat_add, BitVec.toNat_ofNat, Nat.mod_mod]
  exact ⟨⟨decode_encode (.set x nn), writesRegister_of_setV rfl⟩,
    ⟨decode_encode (.add x nn), sum ▸ writesRegister_of_setV rfl⟩,
    ⟨decode_encode (.setReg x y), writesRegister_of_setV rfl⟩⟩

/-- Settles O27: the bits of the one register written. -/
theorem logicCombinesBitsAndLeavesVF : Obligations.LogicCombinesBitsAndLeavesVF := by
  intro x y s
  refine ⟨decode_encode (.or x y), decode_encode (.and x y), decode_encode (.xor x y),
    ⟨_, rfl, onlyRegisters_setV s x _, fun k => ?_⟩, ⟨_, rfl, onlyRegisters_setV s x _, fun k => ?_⟩,
    ⟨_, rfl, onlyRegisters_setV s x _, fun k => ?_⟩⟩
  · rw [State.setV_getV_same, BitVec.getLsbD_or]
  · rw [State.setV_getV_same, BitVec.getLsbD_and]
  · rw [State.setV_getV_same, BitVec.getLsbD_xor]

/-- Settles O28: each result and each flag as a number. -/
theorem flagWritingAluResults : Obligations.FlagWritingAluResults := by
  intro x y s
  refine ⟨⟨decode_encode (.addReg x y), writesRegisterAndFlag_of_writeWithFlag rfl (BitVec.toNat_add ..) ?_⟩,
    ⟨decode_encode (.sub1 x y), writesRegisterAndFlag_of_writeWithFlag rfl (sub_toNat ..) ?_⟩,
    ⟨decode_encode (.shr x y),
      writesRegisterAndFlag_of_writeWithFlag rfl (shiftRight_toNat _) (flagByte_lowBit _)⟩,
    ⟨decode_encode (.sub2 x y), writesRegisterAndFlag_of_writeWithFlag rfl (sub_toNat ..) ?_⟩,
    ⟨decode_encode (.shl x y),
      writesRegisterAndFlag_of_writeWithFlag rfl (shiftLeft_toNat _) (flagByte_highBit _)⟩⟩
  · simp only [flagByte_toNat, carry_iff]
  · simp only [flagByte_toNat, noBorrow_iff]
  · simp only [flagByte_toNat, noBorrow_iff]

/-- Settles O29: the draw of the move's input under the mask; a masked value is drawn by drawing it. -/
theorem randMasksTheDraw : Obligations.RandMasksTheDraw := by
  intro x nn s
  refine ⟨decode_encode (.rand x nn), writesRegister_of_setV rfl, fun t ht => ?_, fun b masked => ?_⟩
  · cases ht
    rw [State.setV_getV_same, BitVec.and_assoc, BitVec.and_not_self]
    exact BitVec.and_zero
  · refine ⟨{ s.input with rand := b }, _, rfl, ?_⟩
    exact (State.setV_getV_same _ x _).trans (and_eq_self_of_and_not_eq_zero masked)

/-! ### The index register -/

/-- Settles O31: the 12-bit address, zero-extended. -/
theorem setIndexLoadsI : Obligations.SetIndexLoadsI :=
  fun a s => ⟨decode_encode (.setIndex a), _, rfl, zextAddr_toNat a, onlyIndex_setIndex s _⟩

/-- Settles O32: word addition wraps, the glyph formula does not. -/
theorem indexArithmetic : Obligations.IndexArithmetic := by
  intro x s
  refine ⟨decode_encode (.addIndex x), decode_encode (.getFontChar x), ⟨_, rfl, ?_, onlyIndex_setIndex s _⟩,
    _, rfl, glyphAddress_toNat _, onlyIndex_setIndex s _⟩
  rw [State.setIndex_index, BitVec.toNat_add, zextByte_toNat]

/-! ### Keys and timers -/

/-- Settles O44: the Boolean of each skip is the poll of the named key. -/
theorem keySkipsPollTheNamedKey : Obligations.KeySkipsPollTheNamedKey := by
  intro x s
  refine ⟨decode_encode (.skipIfKey x), decode_encode (.skipIfNotKey x),
    skipsWhen_of_skipIf rfl (pressed_iff s _), skipsWhen_of_skipIf rfl ?_⟩
  rw [Bool.not_eq_true', ← Bool.not_eq_true, pressed_iff]

/-- Settles O45: the picked key when it is down, else the lowest. -/
theorem anyKeyNamesAPressedKey : Obligations.AnyKeyNamesAPressedKey :=
  fun s => ⟨anyKey_none_iff s, fun _ => anyKey_down s, fun _ down => anyKey_of_pick _ rfl down⟩

theorem exec_waitForKey_none {s : State} (x : Reg) (no_key : s.anyKey = none) :
    exec (.waitForKey x) s = .next (s.setPc (s.pc - 2)) := by
  simp only [exec, execWaitForKey, no_key]

/-- Settles O46: by the two answers of the poll. -/
theorem waitForKeyStoresOrRewinds : Obligations.WaitForKeyStoresOrRewinds := by
  intro x s
  refine ⟨decode_encode (.waitForKey x), fun k key => writesRegister_of_setV ?_, fun no_key => ?_⟩
  · simp only [exec, execWaitForKey, key]
  · exact ⟨_, exec_waitForKey_none x no_key, BitVec.sub_add_cancel _ _, onlyPc_setPc s _⟩

/-- Settles O47: the advanced pc goes back by as much as it was advanced. -/
theorem waitForKeyStepStaysInPlace : Obligations.WaitForKeyStepStaysInPlace := by
  intro s x fetches hd none_down
  have no_key : s.advance.anyKey = none := (anyKey_none_iff s.advance).mpr none_down
  have back : s.advance.setPc (s.advance.pc - 2) = { s with displayChanged := false } := by
    rw [advance_pc, BitVec.add_sub_cancel]
    rfl
  rw [step_fetches_ok fetches hd (exec_waitForKey_none x no_key), back, latchDirty_eq]
  simp [State.nextInput]

/-- Settles O48: one register write and two timer writes. -/
theorem timerMovesCopyOneByte : Obligations.TimerMovesCopyOneByte :=
  fun x _ => ⟨decode_encode (.getDelay x), decode_encode (.setDelay x), decode_encode (.setSound x),
    writesRegister_of_setV rfl, ⟨_, rfl, rfl, fun _ => rfl⟩, _, rfl, rfl, fun _ => rfl⟩

end Sys2Proof.Claims
end

section
/-! Memory instructions (spec/20_memory.md R63 to R70, spec/43_index_memory.md R204 to R206): what a run of stores and a
run of loads leave, whether or not all their addresses exist. -/

namespace Sys2Proof.Machine

section Stores

variable (s : State) (a : Nat) (bs : List Byte)

/-- The stores below the end of memory are made, whether or not a later one raises. -/
theorem storeBytes_mem : (storeBytes a bs s).final.mem = s.mem.writeList a (bs.take (Config.memSize - a)) := by
  by_cases fits : a + bs.length ≤ Config.memSize
  · rw [storeBytes_fits s bs a fits, List.take_of_length_le (by omega)]
    rfl
  · by_cases empty : bs = []
    · rw [empty, List.take_nil]
      rfl
    · rw [storeBytes_overruns s bs empty a (by omega)]
      rfl

theorem storeBytes_byteAt (p : Nat) : (storeBytes a bs s).final.byteAt p =
    if h : a ≤ p ∧ p < a + (bs.take (Config.memSize - a)).length then
      (bs.take (Config.memSize - a))[p - a]'(by omega)
    else s.byteAt p := by
  rw [State.byteAt, storeBytes_mem, Memory.read_writeList]
  rfl

theorem storeBytes_byteAt_stored (k : Nat) (h : k < bs.length) (inRange : a + k < Config.memSize) :
    (storeBytes a bs s).final.byteAt (a + k) = bs[k] := by
  have written : a ≤ a + k ∧ a + k < a + (bs.take (Config.memSize - a)).length := by
    rw [List.length_take]
    omega
  have offset : a + k - a = k := Nat.add_sub_cancel_left ..
  rw [storeBytes_byteAt, dif_pos written]
  simp only [offset, List.getElem_take]

theorem storeBytes_byteAt_kept (p : Nat) (h : p < a ∨ a + bs.length ≤ p ∨ Config.memSize ≤ p) :
    (storeBytes a bs s).final.byteAt p = s.byteAt p := by
  have not_written : ¬ (a ≤ p ∧ p < a + (bs.take (Config.memSize - a)).length) := by
    rw [List.length_take]
    omega
  rw [storeBytes_byteAt, dif_neg not_written]

/-- Stores that all fit change memory and nothing else. -/
theorem storeBytes_frame_fits (fits : a + bs.length ≤ Config.memSize) :
    (storeBytes a bs s).final = { s with mem := (storeBytes a bs s).final.mem } := by
  rw [storeBytes_fits s bs a fits]
  rfl

/-- Stores that run past the end also latch the fault, at the first address that does not exist. -/
theorem storeBytes_frame_overruns (some_stored : bs ≠ []) (past : Config.memSize < a + bs.length) :
    (storeBytes a bs s).final = { s with
      mem := (storeBytes a bs s).final.mem, fault := some .memOutOfRange
      trace := s.trace ++ [.outOfRange (max a Config.memSize)] } := by
  rw [storeBytes_overruns s bs some_stored a past]
  rfl

end Stores

/-- The decimal digits as numbers (R204). -/
theorem decimalDigits_eq (b : Byte) : decimalDigits b =
    [BitVec.ofNat 8 (b.toNat / 100), BitVec.ofNat 8 (b.toNat / 10 % 10), BitVec.ofNat 8 (b.toNat % 10)] := by
  revert b
  decide

section Loads

variable (s : State) (x : Reg)

/-- The registers a `LoadMem` loads are those it names whose address exists. -/
theorem loadMem_getV (k : Reg) : (loadRegs s.base (regsThrough x) s).final.getV k =
    if k ≤ x ∧ s.base + k < Config.memSize then s.byteAt (s.base + k) else s.getV k := by
  simp only [(loadRegs_final s s.base _ (regsThrough_ascending x)).1 k, mem_regsThrough]

/-- The first register whose address does not exist raises. -/
theorem loadMem_frame_overruns (past : Config.memSize ≤ s.base + x) :
    (loadRegs s.base (regsThrough x) s).final = { s with
      v := (loadRegs s.base (regsThrough x) s).final.v, fault := some .memOutOfRange
      trace := s.trace ++ [.outOfRange (max s.base Config.memSize)] } := by
  obtain ⟨-, -, raise⟩ := loadRegs_final s s.base _ (regsThrough_ascending x)
  obtain ⟨first, first_val⟩ : ∃ r : Reg, (r : Nat) = Config.memSize - s.base := ⟨⟨_, by omega⟩, rfl⟩
  have first_listed : first ∈ regsThrough x := by
    rw [mem_regsThrough, Fin.le_def]
    omega
  have first_address : s.base + first = max s.base Config.memSize := by omega
  have earlier : ∀ j ∈ regsThrough x, j < first → s.base + j < Config.memSize := fun j _ lt => by
    have below : (j : Nat) < first := lt
    omega
  rw [← first_address]
  exact raise first first_listed (by omega) earlier

theorem loadMem_frame_fits (fits : s.base + x < Config.memSize) :
    (loadRegs s.base (regsThrough x) s).final =
      { s with v := (loadRegs s.base (regsThrough x) s).final.v } := by
  refine (loadRegs_final s s.base _ (regsThrough_ascending x)).2.1 fun k hk => ?_
  have listed : (k : Nat) ≤ x := (mem_regsThrough x k).mp hk
  omega

theorem loadRegs_byteAt (base : Nat) (ks : List Reg) (p : Nat) :
    (loadRegs base ks s).final.byteAt p = s.byteAt p := by
  obtain ⟨v, f, tr, frame, -⟩ := loadRegs_frame s base ks
  rw [frame]
  rfl

end Loads

end Sys2Proof.Machine

namespace Sys2Proof.Claims

open Sys2Proof.Machine

/-- Settles O30: by the two outcomes of each access. -/
theorem memoryPrimitivesReadAndWriteOneByte : Obligations.MemoryPrimitivesReadAndWriteOneByte := by
  intro s a b
  refine ⟨fun inRange => ⟨memRead_inRange s inRange, _, memWrite_inRange s inRange b, ?_, fun p other => ?_, rfl⟩,
    fun past => ⟨memRead_outOfRange s past, memWrite_outOfRange s past b⟩⟩
  · rw [State.setMem_byteAt, Memory.read_write, if_pos rfl]
  · rw [State.setMem_byteAt, Memory.read_write, if_neg other]
    rfl

/-- Settles O33: three stores, the digits as numbers. -/
theorem binToDecStoresTheDigits : Obligations.BinToDecStoresTheDigits := by
  intro x s
  refine ⟨decode_encode (.binToDec x), _, rfl, ?_⟩
  rw [decimalDigits_eq]
  exact ⟨storeBytes_byteAt_stored s s.base _ 0 (by simp), storeBytes_byteAt_stored s s.base _ 1 (by simp),
    storeBytes_byteAt_stored s s.base _ 2 (by simp), fun p outside => storeBytes_byteAt_kept s s.base _ p outside,
    fun fits => storeBytes_frame_fits s s.base _ fits,
    fun past => storeBytes_frame_overruns s s.base _ (List.cons_ne_nil _ _) past⟩

/-- What a `StoreMem` leaves at the address of a register it names. -/
theorem storeMem_byteAt (s : State) {x k : Reg} (listed : k ≤ x) (inRange : s.base + k < Config.memSize) :
    (storeBytes s.base (s.valuesThrough x) s).final.byteAt (s.base + k) = s.getV k := by
  have stored : (k : Nat) < (s.valuesThrough x).length := by
    rw [valuesThrough_length]
    exact Nat.lt_succ_of_le listed
  rw [storeBytes_byteAt_stored s s.base _ k stored inRange, valuesThrough_get s x k stored k.isLt]

/-- Settles O34: V0 to VX are the bytes stored. -/
theorem storeMemStoresV0ToVX : Obligations.StoreMemStoresV0ToVX := by
  intro x s
  have length : (s.valuesThrough x).length = x + 1 := valuesThrough_length s x
  have some_stored : s.valuesThrough x ≠ [] := List.ne_nil_of_length_pos (by omega)
  refine ⟨decode_encode (.storeMem x), _, rfl, fun k listed inRange => storeMem_byteAt s listed inRange,
    fun p outside => storeBytes_byteAt_kept s s.base _ p ?_, fun fits => storeBytes_frame_fits s s.base _ ?_,
    fun past => storeBytes_frame_overruns s s.base _ some_stored ?_⟩
  · simp only [Config.memSize]
    omega
  · simp only [Config.memSize]
    omega
  · simp only [Config.memSize]
    omega

/-- Settles O35: by what the loads leave in each register, and the frames. -/
theorem loadMemLoadsV0ToVX : Obligations.LoadMemLoadsV0ToVX := by
  intro x s
  refine ⟨decode_encode (.loadMem x), _, rfl, fun k listed inRange => ?_, fun k kept => ?_,
    loadRegs_byteAt s s.base _, loadMem_frame_fits s x, loadMem_frame_overruns s x⟩
  · rw [loadMem_getV, if_pos ⟨listed, inRange⟩]
  · rw [loadMem_getV, if_neg]
    rintro ⟨listed, inRange⟩
    exact kept.elim (not_lt.mpr listed) (Nat.not_le.mpr inRange)

/-- Settles O36: each register is loaded from the address it was stored at. -/
theorem loadMemRestoresWhatStoreMemSaved : Obligations.LoadMemRestoresWhatStoreMemSaved := by
  intro x s t u w fits ht mem index hw k listed
  cases ht
  cases hw
  have base : u.base = s.base := congrArg BitVec.toNat index
  have inRange : s.base + k < Config.memSize := Nat.lt_of_le_of_lt (Nat.add_le_add_left listed _) fits
  rw [loadMem_getV, base, if_pos ⟨listed, inRange⟩, State.byteAt, mem]
  exact storeMem_byteAt s listed inRange

end Sys2Proof.Claims
end

section
/-! Placing a word, the output ports, and the end of a run (spec/40_machine_cycle.md R125, R132,
spec/60_exceptions.md R266, spec/10_state.md R36). -/

namespace Sys2Proof.Claims

open Sys2Proof.Machine

/-! ### Placing a word (log 29) -/

section Placing

variable (s : State) (w : Word)

theorem withFetchWord_eq : s.withFetchWord 16 w.toNat = s.placeWord w := by
  rw [State.withFetchWord, Nat.mod_eq_of_lt w.isLt, BitVec.ofNat_toNat, BitVec.setWidth_eq]

theorem fetchablePc_of_inRange (inRange : s.pc.toNat + 1 < 4096) : s.fetchablePc = s.pc :=
  if_pos (decide_eq_true inRange)

theorem fetchablePc_inRange : s.fetchablePc.toNat + 1 < 4096 := by
  unfold State.fetchablePc
  split
  · rename_i fetch
    exact of_decide_eq_true fetch
  · decide

theorem placeWord_byteAt (p : Nat) : (s.placeWord w).byteAt p =
    if p = s.fetchablePc.toNat then firstByte w
    else if p = s.fetchablePc.toNat + 1 then secondByte w
    else s.byteAt p := by
  show ((s.mem.write _ _).write _ _).read p = _
  rw [Memory.read_write, Memory.read_write]
  by_cases first : p = s.fetchablePc.toNat <;> simp [first, State.byteAt]

theorem wordAtPc_placeWord : wordAtPc (s.placeWord w) = w := by
  have first : (s.placeWord w).byteAt (s.placeWord w).pc.toNat = firstByte w :=
    (placeWord_byteAt s w _).trans (if_pos rfl)
  have second : (s.placeWord w).byteAt ((s.placeWord w).pc.toNat + 1) = secondByte w :=
    (placeWord_byteAt s w _).trans ((if_neg (Nat.succ_ne_self _)).trans (if_pos rfl))
  rw [wordAtPc, first, second]
  exact joinBytes_bytes w

end Placing

/-- Settles O56: the two bytes written are the two fetched. -/
theorem placedWordIsFetchedNext : Obligations.PlacedWordIsFetchedNext := by
  intro s w
  rw [withFetchWord_eq]
  refine ⟨⟨rfl, rfl, rfl, rfl, fetchablePc_inRange s⟩, wordAtPc_placeWord s w, fetchablePc_of_inRange s,
    fun p not_first not_second => ?_, rfl⟩
  exact (placeWord_byteAt s w p).trans ((if_neg not_first).trans (if_neg not_second))

/-! ### The output ports -/

/-- R266: no two latches share a code. -/
theorem faultPort_injective {s u : State} (same : faultPort s = faultPort u) : s.fault = u.fault := by
  revert same
  simp only [faultPort]
  rcases s.fault with _ | _ | _ | _ <;> rcases u.fault with _ | _ | _ | _ <;> decide

theorem faultPort_none {s : State} (clear : s.fault = none) : faultPort s = 0 := by
  rw [faultPort, clear]

theorem colour_lit {f : Framebuffer} {p : Palette} {x : Fin 64} {y : Fin 32} (lit : f.get x y = true) :
    f.colour p x y = p.foreground := if_pos lit

theorem colour_unlit {f : Framebuffer} {p : Palette} {x : Fin 64} {y : Fin 32} (unlit : f.get x y = false) :
    f.colour p x y = p.background := by
  rw [Framebuffer.colour, unlit]
  rfl

/-- With two different colours a cell shows whether it is lit (R36, D24). -/
theorem get_eq_of_colour_eq {p : Palette} (distinct : p.foreground ≠ p.background) {f g : Framebuffer} {x : Fin 64}
    {y : Fin 32} (same : f.colour p x y = g.colour p x y) : f.get x y = g.get x y := by
  cases hf : f.get x y <;> cases hg : g.get x y
  case false.false | true.true => rfl
  case false.true => rw [colour_unlit hf, colour_lit hg] at same; exact absurd same.symm distinct
  case true.false => rw [colour_lit hf, colour_unlit hg] at same; exact absurd same distinct

/-- Settles O57: the codes one by one, the picture cell by cell. -/
theorem outputPortsShowTheState : Obligations.OutputPortsShowTheState := by
  refine ⟨fun s => ⟨faultPort_none, ?_, ?_, ?_⟩, fun p f x y => ⟨colour_lit, colour_unlit⟩, rfl, rfl,
    fun s u => faultPort_injective, fun s => ⟨fun zero => ?_, faultPort_none⟩, fun p f g wellFormed same => ?_⟩
  · exact fun h => by rw [faultPort, h]
  · exact fun h => by rw [faultPort, h]
  · exact fun h => by rw [faultPort, h]
  · exact faultPort_injective (u := State.reset) (zero.trans (faultPort_none rfl).symm)
  · have distinct : p.foreground ≠ p.background := of_decide_eq_true wellFormed
    exact Framebuffer.ext_get fun x y => get_eq_of_colour_eq distinct (same x y)

/-! ### The end of a run (log 32) -/

section EndOfRun

variable {s t u : State}

theorem decode_eq_ok_iff {w : Word} {i : Instr} : decode w = .ok i ↔ w = encode i :=
  ⟨fun h => (encode_of_decode h).symm, fun h => h ▸ decode_encode i⟩

/-- A pc that can be fetched from is its own low 12 bits. -/
theorem eq_setWidth_pc_iff (inRange : s.pc.toNat + 1 < 4096) (a : Addr) :
    a = s.pc.setWidth 12 ↔ s.pc.toNat = a.toNat := by
  rw [BitVec.toNat_eq, BitVec.toNat_setWidth]
  omega

theorem atEnd_iff_jump_to_itself : s.atEnd = true ↔
    s.fault = none ∧ s.loadError = false ∧ s.pc.toNat + 1 < 4096 ∧
      ∃ a : Addr, wordAtPc s = 0x1#4 ++ a ∧ s.pc.toNat = a.toNat := by
  rw [atEnd_iff]
  constructor
  · rintro ⟨fetch, latch, accepted, jump⟩
    have inRange : s.pc.toNat + 1 < 4096 := of_decide_eq_true fetch
    exact ⟨latch, accepted, inRange, _, decode_eq_ok_iff.mp jump, (eq_setWidth_pc_iff inRange _).mp rfl⟩
  · rintro ⟨latch, accepted, inRange, a, word, target⟩
    obtain rfl := (eq_setWidth_pc_iff inRange a).mpr target
    exact ⟨decide_eq_true inRange, latch, accepted, decode_eq_ok_iff.mpr word⟩

/-- A run that has ended has not ended before. -/
theorem endsAfter_not_before {n m : Nat} (first : EndsAfter n s t) (second : EndsAfter m s u) : ¬ n < m := by
  obtain ⟨run, at_end, -⟩ := first
  obtain ⟨-, -, earlier⟩ := second
  intro lt
  rw [earlier n t lt run] at at_end
  cases at_end

theorem endsAfter_unique {n m : Nat} (first : EndsAfter n s t) (second : EndsAfter m s u) : n = m ∧ t = u := by
  obtain rfl : n = m := Nat.le_antisymm (not_lt.mp (endsAfter_not_before second first))
    (not_lt.mp (endsAfter_not_before first second))
  refine ⟨rfl, ?_⟩
  cases first.1.symm.trans second.1
  rfl

theorem endsAfter_zero (at_end : s.atEnd = true) : EndsAfter 0 s s :=
  ⟨rfl, at_end, fun _ _ lt => absurd lt (Nat.not_lt_zero _)⟩

/-- Being at the end is a matter of the pc, memory, the latch and `load_error`. -/
theorem atEnd_congr (pc : t.pc = s.pc) (mem : t.mem = s.mem) (fault : t.fault = s.fault)
    (loadError : t.loadError = s.loadError) : t.atEnd = s.atEnd := by
  simp only [State.atEnd, State.canFetch, State.fetched, State.byteAt, pc, mem, fault, loadError]

/-- The jump takes the advanced pc back to where it was. -/
theorem step_atEnd (at_end : s.atEnd = true) (turn : s.input.turn = .instruction) (close : s.input.close = false) :
    step s = .next { s with displayChanged := false, feed := s.feed.tail, samples := s.samples + 1 } := by
  obtain ⟨fetch, latch, accepted, jump⟩ := atEnd_iff.mp at_end
  have fetches : Fetches s := ⟨turn, close, latch, accepted, of_decide_eq_true fetch⟩
  have back : s.advance.setPc (zextAddr (s.pc.setWidth 12)) = { s with displayChanged := false } := by
    rw [zextAddr_pc fetch]
    rfl
  rw [step_fetches_ok fetches jump rfl, back, latchDirty_eq]
  simp [State.nextInput]

end EndOfRun

/-- Settles O58: the word of a `Jump` by the encoder; two ends by comparing their numbers of moves. -/
theorem endOfRunIsTheFirstJumpToItself : Obligations.EndOfRunIsTheFirstJumpToItself :=
  ⟨fun _ => atEnd_iff_jump_to_itself, fun _ _ _ _ _ => endsAfter_unique, fun _ => endsAfter_zero⟩

/-- Settles O59: by whose turn it is; an instruction turn runs the jump or is closed. -/
theorem endOfRunIsKeptUntilReset : Obligations.EndOfRunIsKeptUntilReset := by
  intro s at_end
  obtain ⟨-, latch, accepted, -⟩ := atEnd_iff.mp at_end
  refine ⟨step_atEnd at_end, fun turn => step_closed turn accepted latch, fun t h => ?_⟩
  rcases step_cases h with ⟨image, turn, -⟩ | ⟨-, rfl⟩ | ⟨turn, -, -, close, -⟩
  case inl => exact .inl ⟨image, turn⟩
  case inr.inl =>
    rw [timerTick_eq]
    exact .inr ⟨(atEnd_congr rfl rfl rfl rfl).trans at_end, rfl⟩
  case inr.inr =>
    cases (step_atEnd at_end turn close).symm.trans h
    exact .inr ⟨(atEnd_congr rfl rfl rfl rfl).trans at_end, rfl⟩

end Sys2Proof.Claims
end
